-- ==== Sys2Proof/Word.lean ====
section
/-! DEFINITION. The word types of SRC595 (spec/30_encoding.md R90, R91; spec/00_scope.md R12). -/

namespace Sys2Proof

/-- The command word `CW` of a beat: 32 bits, bit 0 the least significant (R12, R90). -/
abbrev CmdWord := BitVec 32

/-- A level of a control line: `false` is 0, `true` is 1 (10_state.md R25). -/
abbrev Level := Bool

/-- One cell of the external chain, "a bit or undefined" (20_memory.md R62): `none` is the spec's *undefined*. -/
abbrev Cell := Option Bool

end Sys2Proof
end

