-- ==== Sys2Proof/Config.lean ====
section
/-! DEFINITION. What one instance of the block fixes (N_MAX, DATA_W, P, LINE_FAULTS: spec/92_eei_decisions.md, "Open
parameters in one place") and the free values (constants without a body: nothing can be proved of what they are). -/

namespace Sys2Proof

/-- An answer of the line environment to one line event (60_exceptions.md R206). -/
inductive Answer where
  | ok
  | fail
  deriving DecidableEq, Repr, Inhabited

/-- The level of description a run uses: one step per command (00_scope.md R7), or one step per line event
(10_state.md R33). DESIGN CHOICE (notes/assumptions/1.md): both are modelled and plain data selects one. -/
inductive Granularity where
  | command
  | sequencer
  deriving DecidableEq, Repr, Inhabited

/-- The open parameters of an instance. They stand in the state as data no step changes, so that a statement over
all states is a statement about every instance (notes/assumptions/2.md). -/
structure Params where
  /-- `N_MAX`, the largest chain length CONFIG accepts (R11, D2). -/
  nMax : Nat
  /-- `DATA_W`, the width of `CD` and `RD` (R11, D2). -/
  dataW : Nat
  /-- `P`, the number of parts wired (20_memory.md R62, R78). -/
  parts : Nat
  /-- `LINE_FAULTS`: may a line event be answered `fail` at all (R206, D13). -/
  lineFaults : Bool
  /-- The level of description. -/
  level : Granularity
  deriving DecidableEq, Repr

/-- The constraints on the parameters: `1 <= N_MAX <= 4096`, `DATA_W >= 8 * N_MAX` (R11), `P >= 1`. -/
abbrev Params.Ok (p : Params) : Prop :=
  1 ≤ p.nMax ∧ p.nMax ≤ 4096 ∧ 8 * p.nMax ≤ p.dataW ∧ 1 ≤ p.parts

/-- The reference instance `N_MAX = 8`, `DATA_W = 64` (R11), line faults on (D13), at command level.
DESIGN CHOICE: `P = 8` (notes/assumptions/3.md). -/
def Config.reference : Params where
  nMax := 8
  dataW := 64
  parts := 8
  lineFaults := true
  level := .command

/-- FREE VALUE: the answer of the line environment to an event the script of the state does not cover
(R206 "takes the answers as an oracle"; notes/assumptions/4.md). -/
opaque Config.lineAnswer : Nat → Answer

/-- FREE VALUE: a line level the spec leaves unspecified: after reset (10_state.md R36) and of a line whose drive
failed (60_exceptions.md R208). notes/assumptions/5.md and 8.md. -/
opaque Config.freeLevel : Nat → Level

end Sys2Proof
end

