-- ==== Sys2Proof/Syntax.lean ====
section
/-! DEFINITION. The fourteen commands (spec/30_encoding.md R96, R102, spec/opcode_table.json), one constructor per
row, and the beat that carries one. An index or length is the integer `int16` of its field (R92, R93), `order` the
raw 2-bit field (R94), a value or state operand the unsigned `CD` (R95). Operand order is the assembler's (R102). -/

namespace Sys2Proof

/-- A command beat: the command word and the data operand (R90). `cd` is unsigned, below `2 ^ DATA_W`. -/
structure Beat where
  cw : CmdWord
  cd : Nat
  deriving DecidableEq, Repr

inductive Instr where
  /-- Construction (40_construction_and_clear.md R120). -/
  | config (len : Int) (order : BitVec 2)
  /-- `clearRegister()` (R125). -/
  | clear
  /-- `readRegister()` (41_read.md R140). -/
  | rdreg
  /-- `readByte(index)` (R141). -/
  | rdbyte (k : Int)
  /-- `readBit(index)` (R142). -/
  | rdbit (b : Int)
  /-- `writeRegister(value)` (42_write.md R155). -/
  | wrreg (v : Nat)
  /-- `writeRegister()` with no value (R156). -/
  | refresh
  /-- `writeByte(value, byteIndex)` (R157). -/
  | wrbyte (y : Nat) (k : Int)
  /-- `writeBit(state, bitIndex)` (R158). -/
  | wrbit (st : Nat) (b : Int)
  /-- Pin `get()` (43_pin_facade.md R181). -/
  | pget (p : Int)
  /-- Pin `set(state)` (R182). -/
  | pset (p : Int) (st : Nat)
  /-- Pin `toggle()` (R184). -/
  | ptgl (p : Int)
  /-- Pin `on()` (R185). -/
  | pon (p : Int)
  /-- Pin `off()` (R186). -/
  | poff (p : Int)
  deriving DecidableEq, Repr

/-- The mnemonic of a command (R96, R104). -/
def Instr.mnemonic : Instr → String
  | .config _ _ => "CONFIG"
  | .clear => "CLEAR"
  | .rdreg => "RDREG"
  | .rdbyte _ => "RDBYTE"
  | .rdbit _ => "RDBIT"
  | .wrreg _ => "WRREG"
  | .refresh => "REFRESH"
  | .wrbyte _ _ => "WRBYTE"
  | .wrbit _ _ => "WRBIT"
  | .pget _ => "PGET"
  | .pset _ _ => "PSET"
  | .ptgl _ => "PTGL"
  | .pon _ => "PON"
  | .poff _ => "POFF"

end Sys2Proof
end

