-- ==== Sys2Proof/WellFormed.lean ====
section
/-! DEFINITION. Which commands can be encoded (spec/30_encoding.md R102: "An assembler refuses an index or length
outside `-32768 .. 32767` and a value that does not fit `DATA_W` bits; those cannot be encoded"). -/

namespace Sys2Proof

/-- The integer is one a 16-bit two's complement field spells (R92, R93). -/
def fitsInt16 (k : Int) : Bool :=
  decide (-32768 ≤ k) && decide (k ≤ 32767)

/-- The value fits the `DATA_W`-bit data operand (R95). -/
def fitsData (p : Params) (v : Nat) : Bool :=
  decide (v < 2 ^ p.dataW)

/-- The command can be spelled as a beat of the instance `p`. -/
def Instr.wellFormed (p : Params) : Instr → Bool
  | .config len _ => fitsInt16 len
  | .clear => true
  | .rdreg => true
  | .rdbyte k => fitsInt16 k
  | .rdbit b => fitsInt16 b
  | .wrreg v => fitsData p v
  | .refresh => true
  | .wrbyte y k => fitsData p y && fitsInt16 k
  | .wrbit st b => fitsData p st && fitsInt16 b
  | .pget q => fitsInt16 q
  | .pset q st => fitsInt16 q && fitsData p st
  | .ptgl q => fitsInt16 q
  | .pon q => fitsInt16 q
  | .poff q => fitsInt16 q

/-- The beat can be presented on the port of the instance `p`: its data operand has `DATA_W` bits (R90). -/
def Beat.wellFormed (p : Params) (b : Beat) : Bool :=
  fitsData p b.cd

end Sys2Proof
end

