-- ==== Sys2Proof/Decode.lean ====
section
/-! DEFINITION. Decoding a beat (spec/30_encoding.md R91 to R98), the opcode table (R96), the encoder (R102), and
the assembler's pseudo-forms (R105, R106). -/

namespace Sys2Proof

/-- Why a command word is illegal (R98). Every one of them is answered with IllegalCommand (60_exceptions.md R205). -/
inductive Illegal where
  /-- `OP` is 0x0 or 0xF. -/
  | reservedOp
  /-- A nonzero bit in `Z`. -/
  | nonzeroZ
  /-- A nonzero `ORDER` in a command other than CONFIG. -/
  | nonzeroOrder
  /-- A nonzero `IDX`/`LEN` field in CLEAR, RDREG, WRREG or REFRESH. -/
  | nonzeroLow
  deriving DecidableEq, Repr

/-- `OP`, bits 31:28 (R91). -/
def opField (cw : CmdWord) : BitVec 4 := cw.extractLsb' 28 4

/-- `Z`, bits 27:18 (R91). -/
def zField (cw : CmdWord) : BitVec 10 := cw.extractLsb' 18 10

/-- `ORDER`, bits 17:16 (R91). -/
def orderField (cw : CmdWord) : BitVec 2 := cw.extractLsb' 16 2

/-- `IDX` / `LEN`, bits 15:0 (R91). -/
def lowField (cw : CmdWord) : BitVec 16 := cw.extractLsb' 0 16

/-- `int16(f)`: the integer the field spells in two's complement (00_scope.md R12's table, R92). -/
def int16 (f : BitVec 16) : Int := f.toInt

/-- The 16-bit field that spells an index or length (`k & 0xFFFF`, R102). -/
def field16 (k : Int) : BitVec 16 := BitVec.ofInt 16 k

/-- A command without `IDX`: `Z`, `ORDER` and the low field must be zero (R91, R98). -/
def decodeBare (cw : CmdWord) (i : Instr) : Except Illegal Instr :=
  if zField cw ≠ 0 then .error .nonzeroZ
  else if orderField cw ≠ 0 then .error .nonzeroOrder
  else if lowField cw ≠ 0 then .error .nonzeroLow
  else .ok i

/-- A command with a signed index: `Z` and `ORDER` must be zero (R91, R98). -/
def decodeIndexed (cw : CmdWord) (mk : Int → Instr) : Except Illegal Instr :=
  if zField cw ≠ 0 then .error .nonzeroZ
  else if orderField cw ≠ 0 then .error .nonzeroOrder
  else .ok (mk (int16 (lowField cw)))

/-- CONFIG: only `Z` must be zero (R91, R94). -/
def decodeConfig (cw : CmdWord) : Except Illegal Instr :=
  if zField cw ≠ 0 then .error .nonzeroZ
  else .ok (.config (int16 (lowField cw)) (orderField cw))

/-- Decoding is total; legality depends on `CW` alone, `CD` is only carried along (R97). -/
def decode (b : Beat) : Except Illegal Instr :=
  match (opField b.cw).toNat with
  | 1 => decodeConfig b.cw
  | 2 => decodeBare b.cw .clear
  | 3 => decodeBare b.cw .rdreg
  | 4 => decodeIndexed b.cw fun k => .rdbyte k
  | 5 => decodeIndexed b.cw fun k => .rdbit k
  | 6 => decodeBare b.cw (.wrreg b.cd)
  | 7 => decodeBare b.cw .refresh
  | 8 => decodeIndexed b.cw fun k => .wrbyte b.cd k
  | 9 => decodeIndexed b.cw fun k => .wrbit b.cd k
  | 10 => decodeIndexed b.cw fun k => .pget k
  | 11 => decodeIndexed b.cw fun k => .pset k b.cd
  | 12 => decodeIndexed b.cw fun k => .ptgl k
  | 13 => decodeIndexed b.cw fun k => .pon k
  | 14 => decodeIndexed b.cw fun k => .poff k
  | _ => .error .reservedOp

/-- One row of the opcode map of R96. -/
structure OpcodeRow where
  mnemonic : String
  pattern : CmdWord
  mask : CmdWord
  deriving DecidableEq, Repr

/-- The opcode map of R96: a command word `cw` spells the row whose `(cw & mask) == match`. -/
def opcodeTable : List OpcodeRow :=
  [ ⟨"CONFIG", 0x10000000, 0xFFFC0000⟩,
    ⟨"CLEAR", 0x20000000, 0xFFFFFFFF⟩,
    ⟨"RDREG", 0x30000000, 0xFFFFFFFF⟩,
    ⟨"RDBYTE", 0x40000000, 0xFFFF0000⟩,
    ⟨"RDBIT", 0x50000000, 0xFFFF0000⟩,
    ⟨"WRREG", 0x60000000, 0xFFFFFFFF⟩,
    ⟨"REFRESH", 0x70000000, 0xFFFFFFFF⟩,
    ⟨"WRBYTE", 0x80000000, 0xFFFF0000⟩,
    ⟨"WRBIT", 0x90000000, 0xFFFF0000⟩,
    ⟨"PGET", 0xA0000000, 0xFFFF0000⟩,
    ⟨"PSET", 0xB0000000, 0xFFFF0000⟩,
    ⟨"PTGL", 0xC0000000, 0xFFFF0000⟩,
    ⟨"PON", 0xD0000000, 0xFFFF0000⟩,
    ⟨"POFF", 0xE0000000, 0xFFFF0000⟩ ]

/-- The command word spells the row (R96). -/
abbrev OpcodeRow.Matches (r : OpcodeRow) (cw : CmdWord) : Prop :=
  cw &&& r.mask = r.pattern

/-- Assembling the four fields of R91, `Z` zero. -/
def encodeWord (op : BitVec 4) (order : BitVec 2) (low : BitVec 16) : CmdWord :=
  op ++ (0#10) ++ order ++ low

/-- The beat of a command (the table of R102); where `CD` is ignored it is written as 0. -/
def encode : Instr → Beat
  | .config len order => ⟨encodeWord 1 order (field16 len), 0⟩
  | .clear => ⟨encodeWord 2 0 0, 0⟩
  | .rdreg => ⟨encodeWord 3 0 0, 0⟩
  | .rdbyte k => ⟨encodeWord 4 0 (field16 k), 0⟩
  | .rdbit b => ⟨encodeWord 5 0 (field16 b), 0⟩
  | .wrreg v => ⟨encodeWord 6 0 0, v⟩
  | .refresh => ⟨encodeWord 7 0 0, 0⟩
  | .wrbyte y k => ⟨encodeWord 8 0 (field16 k), y⟩
  | .wrbit st b => ⟨encodeWord 9 0 (field16 b), st⟩
  | .pget p => ⟨encodeWord 10 0 (field16 p), 0⟩
  | .pset p st => ⟨encodeWord 11 0 (field16 p), st⟩
  | .ptgl p => ⟨encodeWord 12 0 (field16 p), 0⟩
  | .pon p => ⟨encodeWord 13 0 (field16 p), 0⟩
  | .poff p => ⟨encodeWord 14 0 (field16 p), 0⟩

/-- A statement of the assembly of section 6: a command, or one of the pseudo-forms of R105 and R106. -/
inductive AsmForm where
  /-- A command with all its operands (R102). -/
  | full (i : Instr)
  /-- `CONFIG len`: the order defaults to NORMAL (R105). -/
  | configLen (len : Int)
  /-- `CONFIG`: length 1, order NORMAL (R105). -/
  | configDefault
  /-- `WRREG` with no operand: a spelling of REFRESH (R106). -/
  | wrregNoValue
  deriving DecidableEq, Repr

/-- The command a form stands for (R105, R106). -/
def AsmForm.expand : AsmForm → Instr
  | .full i => i
  | .configLen len => .config len 0
  | .configDefault => .config 1 0
  | .wrregNoValue => .refresh

/-- The assembler: refuses what cannot be encoded (R102). -/
def assemble (p : Params) (a : AsmForm) : Option Beat :=
  if a.expand.wellFormed p then some (encode a.expand) else none

/-- The beat whose bits are `w`, numbered as spec/opcode_table.json numbers them: the 32 bits of `CW` first, then
`CD`; bits at and above `nbits` are zero. -/
def beatOfBits (nbits w : Nat) : Beat :=
  ⟨BitVec.ofNat 32 (w % 2 ^ nbits), (w % 2 ^ nbits) >>> 32⟩

/-- The command the decoder reads from an instruction whose bits are `w`. -/
def decodeTableWord (nbits w : Nat) : Option Instr :=
  (decode (beatOfBits nbits w)).toOption

end Sys2Proof
end

