-- ==== Sys2Proof/Machine/State.lean ====
section
/-! DEFINITION. The state of the four agents (spec/00_scope.md R8): the controller's registers and lines
(spec/10_state.md), the chain's cells (spec/20_memory.md part 3), the host's moves and what it received
(spec/70_reset_and_hazards.md R262), and the line environment's answers (spec/60_exceptions.md R206). -/

namespace Sys2Proof.Machine

/-- `CFG_STATE` (R22). -/
inductive CfgState where
  | unconfigured
  | configured
  deriving DecidableEq, Repr, Inhabited

/-- `BIT_ORDER` (R24). -/
inductive BitOrder where
  | normalLSBFirst
  | reverseMSBFirst
  deriving DecidableEq, Repr, Inhabited

/-- The five control lines by their short names (R26). -/
inductive Line where
  /-- serialData -/
  | ser
  /-- serialClock -/
  | sck
  /-- latchClock -/
  | lck
  /-- outputEnable; level 1 is the document's "active" and 3-states the outputs (R27, conflict C1) -/
  | oe
  /-- clear; level 0 is "active" (R27, conflict C12) -/
  | clr
  deriving DecidableEq, Repr, Inhabited

/-- One thing for each of the five lines. -/
structure PerLine (α : Type) where
  ser : α
  sck : α
  lck : α
  oe : α
  clr : α
  deriving DecidableEq, Repr

/-- `line[L]`: the level last driven with success on each line (R25). -/
abbrev Lines := PerLine Level

/-- A line event `drive(L, v)`, written `L=v` in the spec (20_memory.md R58). -/
structure LineEvent where
  line : Line
  level : Level
  deriving DecidableEq, Repr

/-- The response codes (30_encoding.md R99); codes 6 to 15 are never produced (X9). -/
inductive RespCode where
  | ok
  | configurationError
  | indexError
  | hardwareFault
  | illegalState
  | illegalCommand
  deriving DecidableEq, Repr

/-- A response: the code `RC` and the datum `RD` (R99). -/
structure Response where
  code : RespCode
  data : Nat
  deriving DecidableEq, Repr

/-- The errors a command can raise (60_exceptions.md R200). -/
inductive CmdError where
  | configurationError
  | indexError
  | hardwareFault
  | illegalState
  | illegalCommand
  deriving DecidableEq, Repr

/-- What the host can do to the controller (70_reset_and_hazards.md R262): send a beat, or reset it. -/
inductive HostMove where
  | beat (b : Beat)
  | reset
  deriving DecidableEq, Repr

/-- The sequencer (10_state.md R32, R33): idle, or busy with a command of which `k` events have been emitted. -/
inductive Sequencer where
  | idle
  | busy (cmd : Instr) (k : Nat)
  deriving DecidableEq, Repr

/-- The machine stops with none of these: every error of the spec is a response, after which the controller takes
the next command (60_exceptions.md R212, R216). The type has no constructor (notes/assumptions/16.md). -/
inductive Fault where
  deriving DecidableEq, Repr

/-- Reasons an instruction has no meaning. -/
inductive Refusal where
  /-- Raised only by an arm of `exec` for a command not modelled yet (none is left); safe. -/
  | notModelled (mnemonic : String)
  deriving DecidableEq, Repr

/-- The whole system: one controller instance, its host, its line environment and its chain. -/
structure State where
  /-- The instance's open parameters; no step changes them (R11, R78, R206). -/
  params : Params
  /-- `CFG_STATE` (R22). -/
  cfg : CfgState
  /-- `CHAIN_LEN`, the document's `N` (R23); meaningful while CONFIGURED. -/
  chainLen : Nat
  /-- `BIT_ORDER` (R24); meaningful while CONFIGURED. -/
  bitOrder : BitOrder
  /-- `shadow`, `8 * chainLen` bits unsigned (R20, R21); meaningful while CONFIGURED. -/
  shadow : Nat
  /-- `line[L]` (R25). -/
  lines : Lines
  /-- Whether the level of each line is specified: it is not after a reset (R36) nor after a drive of the line that
  failed, until an event on it is answered `ok` (60_exceptions.md R208). -/
  specified : PerLine Bool
  /-- The sequencer position (R32, R33). -/
  seq : Sequencer
  /-- The chain's shift stages, index `8c + q` for output `q` of part `c` (20_memory.md R62). -/
  stage : List Cell
  /-- The chain's output latches (R62). -/
  latch : List Cell
  /-- The moves the host has still to make, next first (R262). -/
  host : List HostMove
  /-- The responses given, oldest first (R262). -/
  responses : List Response
  /-- The line events emitted, oldest first, a failing one included (R58, R262). -/
  events : List LineEvent
  /-- THE MODEL'S OWN: the line environment's next answers (R206); beyond them the free value answers. -/
  answers : List Answer
  /-- THE MODEL'S OWN: picks fresh free values. -/
  fresh : Nat
  deriving DecidableEq, Repr

/-- Five unspecified levels, free values number `n` to `n + 4`. -/
def Lines.unspecified (n : Nat) : Lines where
  ser := Config.freeLevel n
  sck := Config.freeLevel (n + 1)
  lck := Config.freeLevel (n + 2)
  oe := Config.freeLevel (n + 3)
  clr := Config.freeLevel (n + 4)

/-- The same for every line. -/
def PerLine.all {α : Type} (x : α) : PerLine α := ⟨x, x, x, x, x⟩

/-- The machine right after power-on, for an instance with the parameters `p` (10_state.md R36): UNCONFIGURED, line
levels unspecified, sequencer idle, every chain cell undefined. DESIGN CHOICE (notes/assumptions/6.md): `CHAIN_LEN`,
`BIT_ORDER` and `shadow`, for which the spec gives no value, hold 0, NormalLSBFirst and 0. -/
def State.resetOf (p : Params) : State where
  params := p
  cfg := .unconfigured
  chainLen := 0
  bitOrder := .normalLSBFirst
  shadow := 0
  lines := Lines.unspecified 0
  specified := PerLine.all false
  seq := .idle
  stage := List.replicate (8 * p.parts) none
  latch := List.replicate (8 * p.parts) none
  host := []
  responses := []
  events := []
  answers := []
  fresh := 5

/-- The reference instance right after power-on. -/
def State.reset : State := State.resetOf Config.reference

end Sys2Proof.Machine
end

