-- ==== Sys2Proof/Machine/Chain.lean ====
section
/-! DEFINITION. The attached chain's reaction to one line event (spec/20_memory.md part 3, R62 to R69), and the output
pins. The edges, the direction of shift and the wiring are the spec's general-knowledge passages GK2 to GK7
(PRESUMED, notes/assumptions/10.md). Every function takes the line levels, and which of them are specified, as they were
BEFORE the event. -/

namespace Sys2Proof.Machine

/-- What stands for a line: its level (R25), or whether that is specified. -/
def PerLine.get {α : Type} (ln : PerLine α) : Line → α
  | .ser => ln.ser
  | .sck => ln.sck
  | .lck => ln.lck
  | .oe => ln.oe
  | .clr => ln.clr

/-- `line[L] <- v` (R58). -/
def PerLine.set {α : Type} (ln : PerLine α) (l : Line) (v : α) : PerLine α :=
  match l with
  | .ser => { ln with ser := v }
  | .sck => { ln with sck := v }
  | .lck => { ln with lck := v }
  | .oe => { ln with oe := v }
  | .clr => { ln with clr := v }

/-- Every cell 0 (R64). -/
def zeroCells (cells : List Cell) : List Cell :=
  List.replicate cells.length (some false)

/-- Every cell undefined (R63, 60_exceptions.md R208). -/
def undefinedCells (cells : List Cell) : List Cell :=
  List.replicate cells.length none

/-- One shift toward higher stage numbers: the serial bit enters stage 0, the last stage is lost (R65). -/
def shiftIn (b : Level) (cells : List Cell) : List Cell :=
  (some b :: cells).dropLast

/-- Whether driving the line to 1 is a rising edge: the line was at 0 (R65, R66), or its level is unspecified. The latter
is DEDUCED (notes/assumptions/9.md): after a failed drive of a clock a completed CLEAR still defines every latch
(60_exceptions.md R208, R217) and a completed write still reloads the chain (70_reset_and_hazards.md R254). -/
def rises (ln : Lines) (sp : PerLine Bool) (l : Line) : Bool :=
  !(sp.get l && ln.get l)

/-- The shift stages after an event (R64, R65, R69). With `CLR` at 0 a rising `SCK` leaves the stages at 0. -/
def stageAfter (ln : Lines) (sp : PerLine Bool) (e : LineEvent) (stage : List Cell) : List Cell :=
  match e.line, e.level with
  | .clr, false => zeroCells stage
  | .sck, true =>
    if rises ln sp .sck then
      if ln.clr then shiftIn ln.ser stage else zeroCells stage
    else stage
  | _, _ => stage

/-- The output latches after an event: a rising `LCK` copies the stages, nothing else changes them (R66, R69). -/
def latchAfter (ln : Lines) (sp : PerLine Bool) (e : LineEvent) (stage latch : List Cell) : List Cell :=
  match e.line, e.level with
  | .lck, true => if rises ln sp .lck then stage else latch
  | _, _ => latch

/-- What an output pin shows (R67, X12). -/
inductive Pin where
  /-- a level -/
  | level (v : Level)
  /-- enabled, but the latch is undefined -/
  | undefined
  /-- high impedance: no level -/
  | highZ
  deriving DecidableEq, Repr

/-- The pin over one latch, given the level of `OE` (R67). -/
def pinOf (oe : Level) (c : Cell) : Pin :=
  if oe then .highZ
  else match c with
    | some v => .level v
    | none => .undefined

/-- `out[0 .. 8P-1]` (R62, R67). -/
def State.out (s : State) : List Pin :=
  s.latch.map (pinOf s.lines.oe)

/-- The index of output `Q_q` of part `c` (R62). -/
def pinIndex (c q : Nat) : Nat := 8 * c + q

end Sys2Proof.Machine
end

