-- ==== Sys2Proof/Machine/Ops.lean ====
section
/-! DEFINITION. The named operations every meaning is written with: the bit operations of spec/00_scope.md R12's
table, the writes of the registers, the line events and the line environment's answers (spec/20_memory.md R58,
spec/60_exceptions.md R206 to R208), the response and the raising of an error (R212), the shift-out procedure
(spec/42_write.md R152 to R154), and the host's reset (spec/70_reset_and_hazards.md R240). -/

namespace Sys2Proof.Machine

/-! ### Bits (R12) -/

/-- `mask(n)`: `2^n - 1`. -/
def mask (n : Nat) : Nat := 2 ^ n - 1

/-- `~x` within `w` bits. -/
def notBits (w x : Nat) : Nat := mask w ^^^ (x &&& mask w)

/-- `v[b]` of a `w`-bit unsigned `v`; at and above the width it is 0 (R12's table, 42_write.md R154). -/
def bitOf (w v b : Nat) : Bool := decide (b < w) && v.testBit b

/-- `MemRead(addr, n)` on the shadow `v`: `(v >> addr) & mask(n)`. -/
def memRead (v addr n : Nat) : Nat := (v >>> addr) &&& mask n

/-- `MemWrite(addr, n, x)` on the `w`-bit shadow `v`: clear the field, OR the masked value in, keep `w` bits. -/
def memWrite (w v addr n x : Nat) : Nat :=
  ((v &&& notBits w (mask n <<< addr)) ||| ((x &&& mask n) <<< addr)) &&& mask w

/-! ### Registers -/

/-- `W`, the width of the shadow (00_scope.md R9). -/
def State.width (s : State) : Nat := 8 * s.chainLen

/-- `shadow <- v`. -/
def State.setShadow (s : State) (v : Nat) : State := { s with shadow := v }

/-- The sequencer position (10_state.md R32). -/
def State.setSeq (s : State) (q : Sequencer) : State := { s with seq := q }

/-- The host's remaining moves. -/
def State.setHost (s : State) (h : List HostMove) : State := { s with host := h }

/-- The register writes of a CONFIG that completes (40_construction_and_clear.md R120). -/
def State.construct (s : State) (n : Nat) (o : BitOrder) : State :=
  { s with cfg := .configured, chainLen := n, bitOrder := o, shadow := 0 }

/-- `Merge1(b, x)` (42_write.md R150). -/
def State.merge1 (s : State) (b : Nat) (x : Nat) : State :=
  s.setShadow (memWrite s.width s.shadow b 1 x)

/-- `Merge8(k, y)` (42_write.md R151). -/
def State.merge8 (s : State) (k : Nat) (y : Nat) : State :=
  s.setShadow (memWrite s.width s.shadow (8 * k) 8 y)

/-! ### Responses and errors -/

/-- `respond(code, d)`: the one response of a command (30_encoding.md R99). -/
def State.respond (s : State) (code : RespCode) (d : Nat) : State :=
  { s with responses := s.responses ++ [⟨code, d⟩] }

/-- The code of an error (30_encoding.md R99). -/
def CmdError.code : CmdError → RespCode
  | .configurationError => .configurationError
  | .indexError => .indexError
  | .hardwareFault => .hardwareFault
  | .illegalState => .illegalState
  | .illegalCommand => .illegalCommand

/-- `raise E`, "the whole of trap entry" (60_exceptions.md R212): no further event, no further write, the response is
the error's code with `RD = 0`. Nothing is saved and there is nothing to return from (R216): the next command is
taken as after an OK. -/
def State.raise (s : State) (e : CmdError) : State := s.respond e.code 0

/-! ### Line events -/

/-- The answer the line environment gives to the `j`-th event from now (R206): `ok` where line faults are off, else
the script of the state, beyond it a free value. -/
def State.answerAt (s : State) (j : Nat) : Answer :=
  if s.params.lineFaults then
    match s.answers[j]? with
    | some a => a
    | none => Config.lineAnswer (s.fresh + j)
  else .ok

/-- An event answered `ok`: the line takes the level and the chain reacts (R58). -/
def State.eventOk (s : State) (e : LineEvent) : State :=
  { s with
    events := s.events ++ [e]
    answers := s.answers.tail
    fresh := s.fresh + 1
    lines := s.lines.set e.line e.level
    specified := s.specified.set e.line true
    stage := stageAfter s.lines s.specified e s.stage
    latch := latchAfter s.lines s.specified e s.stage s.latch }

/-- An event answered `fail`: it was attempted; the level of its line is unspecified (a free value), and every stage
and latch becomes undefined (R208). -/
def State.eventFail (s : State) (e : LineEvent) : State :=
  { s with
    events := s.events ++ [e]
    answers := s.answers.tail
    fresh := s.fresh + 1
    lines := s.lines.set e.line (Config.freeLevel s.fresh)
    specified := s.specified.set e.line false
    stage := undefinedCells s.stage
    latch := undefinedCells s.latch }

/-- Emitting a list of events in order, stopping at the first `fail` (20_memory.md R59, 60_exceptions.md R206). -/
def emit : List LineEvent → State → State × Answer
  | [], s => (s, .ok)
  | e :: es, s =>
    match s.answerAt 0 with
    | .ok => emit es (s.eventOk e)
    | .fail => (s.eventFail e, .fail)

/-- The execution of a command after its checks and its before-events writes: the events, then, if every one is
answered `ok`, the after-events writes and the response `(OK, d)`; on a `fail` HardwareFault (10_state.md R33,
60_exceptions.md R207). -/
def driveThen (es : List LineEvent) (after : State → State) (d : Nat) (s : State) : State :=
  match emit es s with
  | (t, .ok) => (after t).respond .ok d
  | (t, .fail) => t.raise .hardwareFault

/-! ### The shift-out procedure (42_write.md R152) -/

/-- `pulse(L, a, b)`: two events (00_scope.md R12's table). -/
def pulse (l : Line) (a b : Level) : List LineEvent := [⟨l, a⟩, ⟨l, b⟩]

/-- `t(i)`, the bit sent at step `i` (R153, R154): the reverse index is `W - i`, not `W - 1 - i`. -/
def sentBit (o : BitOrder) (w shadow i : Nat) : Bool :=
  match o with
  | .normalLSBFirst => bitOf w shadow i
  | .reverseMSBFirst => bitOf w shadow (w - i)

/-- The three events of one bit (R152). -/
def bitEvents (b : Level) : List LineEvent := ⟨.ser, b⟩ :: pulse .sck true false

/-- The events of `ShiftOut()`: they depend on the bit order, the chain length and the shadow only (R152, R163). -/
def shiftOutEvents (o : BitOrder) (n shadow : Nat) : List LineEvent :=
  pulse .clr false true
    ++ (List.range (8 * n)).flatMap (fun i => bitEvents (sentBit o (8 * n) shadow i))
    ++ pulse .lck true false

/-- `ShiftOut()` of the present shadow, then `respond(OK, 0)`; every write command ends with it. -/
def shiftOutRespond (s : State) : State :=
  driveThen (shiftOutEvents s.bitOrder s.chainLen s.shadow) id 0 s

/-! ### Hardware reset -/

/-- The host's reset of the controller (70_reset_and_hazards.md R240, 10_state.md R36): UNCONFIGURED, the registers
as after power-on, line levels unspecified, sequencer idle; the chain's contents are taken as undefined
(notes/assumptions/13.md). No response is given (R262). -/
def State.hardwareReset (s : State) : State :=
  { s with
    cfg := .unconfigured
    chainLen := 0
    bitOrder := .normalLSBFirst
    shadow := 0
    lines := Lines.unspecified s.fresh
    specified := PerLine.all false
    seq := .idle
    stage := undefinedCells s.stage
    latch := undefinedCells s.latch
    fresh := s.fresh + 5 }

/-- A beat put where the port takes its next one, with the controller ready for it at command level. -/
def State.placeBeat (s : State) (b : Beat) : State :=
  { s with
    params := { s.params with level := .command }
    seq := .idle
    host := .beat b :: s.host }

end Sys2Proof.Machine
end

