-- ==== Sys2Proof/Machine/Operands.lean ====
section
/-! DEFINITION. The operand forms (spec/30_encoding.md R92 to R95) and the checks on them (spec/20_memory.md R57,
spec/60_exceptions.md R202, R204, R211). -/

namespace Sys2Proof.Machine

/-- The state check of every command but CONFIG: IllegalState while UNCONFIGURED (R204). -/
def whenConfigured (f : State → State) (s : State) : State :=
  if s.cfg = .unconfigured then s.raise .illegalState else f s

/-- The index check: IndexError unless `0 <= k < capacity`, else the body with the index (R57, R202). -/
def withIndex (capacity : Nat) (k : Int) (f : Nat → State → State) (s : State) : State :=
  if k < 0 ∨ (capacity : Int) ≤ k then s.raise .indexError else f k.toNat s

/-- A byte operand of an indexed command: `0 <= k < N` (R57). -/
def withByteIndex (k : Int) (f : Nat → State → State) (s : State) : State :=
  withIndex s.chainLen k f s

/-- A bit operand of an indexed command: `0 <= b < W` (R57). -/
def withBitIndex (b : Int) (f : Nat → State → State) (s : State) : State :=
  withIndex s.width b f s

/-- The `ORDER` field: 0 and 1 are the two members, 2 and 3 are not recognised (R94). -/
def orderOf (f : BitVec 2) : Option BitOrder :=
  if f = 0 then some .normalLSBFirst
  else if f = 1 then some .reverseMSBFirst
  else none

/-- `CD & mask(W)`, the register operand (R95). -/
def registerOperand (w cd : Nat) : Nat := cd &&& mask w

/-- `CD & 0xFF`, the byte operand (R95). -/
def byteOperand (cd : Nat) : Nat := cd &&& mask 8

/-- `CD & 1`, the state operand (R95). -/
def stateOperand (cd : Nat) : Nat := cd &&& mask 1

end Sys2Proof.Machine
end

