-- ==== Sys2Proof/Machine/Flags.lean ====
section
/-! DEFINITION. The hardware has no flags and no condition codes (spec/10_state.md R28). What stands in their place
is the outcome of a command, the response; this file gives its bits (spec/30_encoding.md R99, R100). -/

namespace Sys2Proof.Machine

/-- The 4-bit number `RC` of a response code (R99). -/
def RespCode.number : RespCode → BitVec 4
  | .ok => 0
  | .configurationError => 1
  | .indexError => 2
  | .hardwareFault => 3
  | .illegalState => 4
  | .illegalCommand => 5

/-- The response as the port gives it: `RC`, and `RD` zero-extended to `DATA_W` bits (R99, R100). -/
def Response.bits (p : Params) (r : Response) : BitVec 4 × BitVec p.dataW :=
  (r.code.number, BitVec.ofNat p.dataW r.data)

end Sys2Proof.Machine
end

