-- ==== Sys2Proof/Machine/Construction.lean ====
section
/-! DEFINITION. CONFIG and CLEAR (spec/40_construction_and_clear.md R120 to R127). -/

namespace Sys2Proof.Machine

/-- The five events of CONFIG, in the order of R121. -/
def configEvents : List LineEvent :=
  [⟨.clr, true⟩, ⟨.oe, false⟩, ⟨.sck, false⟩, ⟨.lck, false⟩, ⟨.ser, false⟩]

/-- The six events of CLEAR (R125). -/
def clearEvents : List LineEvent :=
  ⟨.oe, true⟩ :: pulse .clr false true ++ pulse .lck true false ++ [⟨.oe, false⟩]

/-- CONFIG `len, order` (R120): the checks in R120's order, the five events, then the registers. -/
def execConfig (len : Int) (order : BitVec 2) (s : State) : Host.Outcome State Fault Refusal :=
  .next <|
    if s.cfg = .configured then s.raise .illegalState
    else if len ≤ 0 then s.raise .configurationError
    else if (s.params.nMax : Int) < len then s.raise .configurationError
    else
      match orderOf order with
      | none => s.raise .configurationError
      | some o => driveThen configEvents (fun t => t.construct len.toNat o) 0 s

/-- CLEAR (R125): the shadow is set to 0 after the last event. -/
def execClear (s : State) : Host.Outcome State Fault Refusal :=
  .next <| whenConfigured (driveThen clearEvents (fun t => t.setShadow 0) 0) s

end Sys2Proof.Machine
end

