-- ==== Sys2Proof/Machine/Reads.lean ====
section
/-! DEFINITION. The read commands (spec/41_read.md R140 to R144): accessors over the shadow, no event, no write. -/

namespace Sys2Proof.Machine

/-- `readBit(b)`: the response of RDBIT and PGET (R142, 43_pin_facade.md R181). -/
def readBit (b : Int) (s : State) : State :=
  whenConfigured (withBitIndex b fun n t => t.respond .ok (memRead t.shadow n 1)) s

/-- RDREG (R140). -/
def execRdreg (s : State) : Host.Outcome State Fault Refusal :=
  .next <| whenConfigured (fun t => t.respond .ok t.shadow) s

/-- RDBYTE `k` (R141). -/
def execRdbyte (k : Int) (s : State) : Host.Outcome State Fault Refusal :=
  .next <| whenConfigured (withByteIndex k fun n t => t.respond .ok (memRead t.shadow (8 * n) 8)) s

/-- RDBIT `b` (R142). -/
def execRdbit (b : Int) (s : State) : Host.Outcome State Fault Refusal :=
  .next <| readBit b s

end Sys2Proof.Machine
end

