-- ==== Sys2Proof/Machine/Writes.lean ====
section
/-! DEFINITION. The write commands (spec/42_write.md R155 to R158): first the shadow, then the whole shift-out. -/

namespace Sys2Proof.Machine

/-- `writeBit(x, b)` for an operand already masked to one bit: WRBIT and the pin facade's writes (R158, R180). -/
def writeBit (x : Nat) (b : Int) (s : State) : State :=
  whenConfigured (withBitIndex b fun n t => shiftOutRespond (t.merge1 n x)) s

/-- WRREG `v` (R155). -/
def execWrreg (v : Nat) (s : State) : Host.Outcome State Fault Refusal :=
  .next <| whenConfigured (fun t => shiftOutRespond (t.setShadow (registerOperand t.width v))) s

/-- REFRESH (R156). -/
def execRefresh (s : State) : Host.Outcome State Fault Refusal :=
  .next <| whenConfigured shiftOutRespond s

/-- WRBYTE `y, k` (R157). -/
def execWrbyte (y : Nat) (k : Int) (s : State) : Host.Outcome State Fault Refusal :=
  .next <| whenConfigured (withByteIndex k fun n t => shiftOutRespond (t.merge8 n (byteOperand y))) s

/-- WRBIT `st, b` (R158). -/
def execWrbit (st : Nat) (b : Int) (s : State) : Host.Outcome State Fault Refusal :=
  .next <| writeBit (stateOperand st) b s

end Sys2Proof.Machine
end

