-- ==== Sys2Proof/Machine/Pins.lean ====
section
/-! DEFINITION. The pin facade (spec/43_pin_facade.md R180 to R187): each command delegates to the driver. -/

namespace Sys2Proof.Machine

/-- PGET `p` (R181): exactly RDBIT `p`. -/
def execPget (p : Int) (s : State) : Host.Outcome State Fault Refusal :=
  .next <| readBit p s

/-- PSET `p, st` (R182): exactly WRBIT `st, p`. -/
def execPset (p : Int) (st : Nat) (s : State) : Host.Outcome State Fault Refusal :=
  .next <| writeBit (stateOperand st) p s

/-- PTGL `p` (R184): read the bit, then as POFF if it is 1 and as PON if it is 0, with one shift-out. -/
def execPtgl (p : Int) (s : State) : Host.Outcome State Fault Refusal :=
  .next <| whenConfigured
    (withBitIndex p fun n t => shiftOutRespond (t.merge1 n (1 - memRead t.shadow n 1))) s

/-- PON `p` (R185): `set(1)`. -/
def execPon (p : Int) (s : State) : Host.Outcome State Fault Refusal :=
  .next <| writeBit 1 p s

/-- POFF `p` (R186): `set(0)`. -/
def execPoff (p : Int) (s : State) : Host.Outcome State Fault Refusal :=
  .next <| writeBit 0 p s

end Sys2Proof.Machine
end

