-- ==== Sys2Proof/Machine/Dispatch.lean ====
section
/-! DEFINITION. The dispatch of a decoded command to its meaning, one arm per constructor (spec/30_encoding.md R96). -/

namespace Sys2Proof.Machine

def exec (i : Instr) (s : State) : Host.Outcome State Fault Refusal :=
  match i with
  | .config len order => Sys2Proof.Machine.execConfig len order s
  | .clear => Sys2Proof.Machine.execClear s
  | .rdreg => Sys2Proof.Machine.execRdreg s
  | .rdbyte k => Sys2Proof.Machine.execRdbyte k s
  | .rdbit b => Sys2Proof.Machine.execRdbit b s
  | .wrreg v => Sys2Proof.Machine.execWrreg v s
  | .refresh => Sys2Proof.Machine.execRefresh s
  | .wrbyte y k => Sys2Proof.Machine.execWrbyte y k s
  | .wrbit st b => Sys2Proof.Machine.execWrbit st b s
  | .pget p => Sys2Proof.Machine.execPget p s
  | .pset p st => Sys2Proof.Machine.execPset p st s
  | .ptgl p => Sys2Proof.Machine.execPtgl p s
  | .pon p => Sys2Proof.Machine.execPon p s
  | .poff p => Sys2Proof.Machine.execPoff p s

end Sys2Proof.Machine
end

