-- ==== Sys2Proof/Machine/Sequencer.lean ====
section
/-! DEFINITION. The sequencer level (spec/10_state.md R32, R33): one line event per step. The tables below are R33's
own split of each command into checks, before-events writes, events and after-events writes; that running them ends
where `exec` ends is a claim, not a definition. -/

namespace Sys2Proof.Machine

/-- The index check of R57 as a verdict. -/
def indexVerdict (capacity : Nat) (k : Int) : Option CmdError :=
  if 0 ≤ k ∧ k < capacity then none else some .indexError

/-- The checks of a command on a configured controller (R211, step 3). -/
def operandVerdict : Instr → State → Option CmdError
  | .config len order, s =>
    if 1 ≤ len ∧ len ≤ s.params.nMax ∧ (orderOf order).isSome then none else some .configurationError
  | .clear, _ => none
  | .rdreg, _ => none
  | .rdbyte k, s => indexVerdict s.chainLen k
  | .rdbit b, s => indexVerdict s.width b
  | .wrreg _, _ => none
  | .refresh, _ => none
  | .wrbyte _ k, s => indexVerdict s.chainLen k
  | .wrbit _ b, s => indexVerdict s.width b
  | .pget p, s => indexVerdict s.width p
  | .pset p _, s => indexVerdict s.width p
  | .ptgl p, s => indexVerdict s.width p
  | .pon p, s => indexVerdict s.width p
  | .poff p, s => indexVerdict s.width p

/-- The `CFG_STATE` in which a command is accepted (60_exceptions.md R204). -/
def requiredCfg : Instr → CfgState
  | .config _ _ => .unconfigured
  | .clear => .configured
  | .rdreg => .configured
  | .rdbyte _ => .configured
  | .rdbit _ => .configured
  | .wrreg _ => .configured
  | .refresh => .configured
  | .wrbyte _ _ => .configured
  | .wrbit _ _ => .configured
  | .pget _ => .configured
  | .pset _ _ => .configured
  | .ptgl _ => .configured
  | .pon _ => .configured
  | .poff _ => .configured

/-- Steps 2 and 3 of R211 for a decoded command. -/
def checkVerdict (i : Instr) (s : State) : Option CmdError :=
  if s.cfg = requiredCfg i then operandVerdict i s else some .illegalState

/-- R33's column "Before events". -/
def beforeEvents : Instr → State → State
  | .config _ _, s => s
  | .clear, s => s
  | .rdreg, s => s
  | .rdbyte _, s => s
  | .rdbit _, s => s
  | .wrreg v, s => s.setShadow (registerOperand s.width v)
  | .refresh, s => s
  | .wrbyte y k, s => s.merge8 k.toNat (byteOperand y)
  | .wrbit st b, s => s.merge1 b.toNat (stateOperand st)
  | .pget _, s => s
  | .pset p st, s => s.merge1 p.toNat (stateOperand st)
  | .ptgl p, s => s.merge1 p.toNat (1 - memRead s.shadow p.toNat 1)
  | .pon p, s => s.merge1 p.toNat 1
  | .poff p, s => s.merge1 p.toNat 0

/-- `Events(cmd, state)`; the state is the one after the before-events writes, and the events do not change what
they are computed from. -/
def eventsOf : Instr → State → List LineEvent
  | .config _ _, _ => configEvents
  | .clear, _ => clearEvents
  | .rdreg, _ => []
  | .rdbyte _, _ => []
  | .rdbit _, _ => []
  | .wrreg _, s => shiftOutEvents s.bitOrder s.chainLen s.shadow
  | .refresh, s => shiftOutEvents s.bitOrder s.chainLen s.shadow
  | .wrbyte _ _, s => shiftOutEvents s.bitOrder s.chainLen s.shadow
  | .wrbit _ _, s => shiftOutEvents s.bitOrder s.chainLen s.shadow
  | .pget _, _ => []
  | .pset _ _, s => shiftOutEvents s.bitOrder s.chainLen s.shadow
  | .ptgl _, s => shiftOutEvents s.bitOrder s.chainLen s.shadow
  | .pon _, s => shiftOutEvents s.bitOrder s.chainLen s.shadow
  | .poff _, s => shiftOutEvents s.bitOrder s.chainLen s.shadow

/-- R33's column "After events". -/
def afterEvents : Instr → State → State
  | .config len order, s => s.construct len.toNat ((orderOf order).getD .normalLSBFirst)
  | .clear, s => s.setShadow 0
  | .rdreg, s => s
  | .rdbyte _, s => s
  | .rdbit _, s => s
  | .wrreg _, s => s
  | .refresh, s => s
  | .wrbyte _ _, s => s
  | .wrbit _ _, s => s
  | .pget _, s => s
  | .pset _ _, s => s
  | .ptgl _, s => s
  | .pon _, s => s
  | .poff _, s => s

/-- The datum of an OK response (30_encoding.md R100). -/
def datumOf : Instr → State → Nat
  | .config _ _, _ => 0
  | .clear, _ => 0
  | .rdreg, s => s.shadow
  | .rdbyte k, s => memRead s.shadow (8 * k.toNat) 8
  | .rdbit b, s => memRead s.shadow b.toNat 1
  | .wrreg _, _ => 0
  | .refresh, _ => 0
  | .wrbyte _ _, _ => 0
  | .wrbit _ _, _ => 0
  | .pget p, s => memRead s.shadow p.toNat 1
  | .pset _ _, _ => 0
  | .ptgl _, _ => 0
  | .pon _, _ => 0
  | .poff _, _ => 0

/-- R33 (c): the after-events writes, the OK response, idle again. -/
def seqFinish (i : Instr) (s : State) : State :=
  ((afterEvents i s).respond .ok (datumOf i s)).setSeq .idle

/-- R33 (a): a command arrives at an idle controller. -/
def seqAccept (i : Instr) (s : State) : State :=
  match checkVerdict i s with
  | some e => (s.raise e).setSeq .idle
  | none =>
    match eventsOf i (beforeEvents i s) with
    | [] => seqFinish i (beforeEvents i s)
    | _ :: _ => (beforeEvents i s).setSeq (.busy i 0)

/-- R33 (b) and (c): one step of a controller busy with (`i`, `k`). -/
def seqAdvance (i : Instr) (k : Nat) (s : State) : State :=
  match (eventsOf i s)[k]? with
  | some e =>
    match s.answerAt 0 with
    | .ok => (s.eventOk e).setSeq (.busy i (k + 1))
    | .fail => ((s.eventFail e).raise .hardwareFault).setSeq .idle
  | none => seqFinish i s

/-- The phases of a command that runs the shift-out procedure (R32). -/
inductive Phase where
  | preClearFirst
  | preClearSecond
  | bitData (i : Nat)
  | bitClockUp (i : Nat)
  | bitClockDown (i : Nat)
  | latchUp
  | latchDown
  | done
  deriving DecidableEq, Repr

/-- R32's table: the count `k` of events emitted decodes to a phase and a bit counter, `w` the shadow's width. -/
def phaseAt (w k : Nat) : Phase :=
  if k = 0 then .preClearFirst
  else if k = 1 then .preClearSecond
  else if k < 2 + 3 * w then
    match (k - 2) % 3 with
    | 0 => .bitData ((k - 2) / 3)
    | 1 => .bitClockUp ((k - 2) / 3)
    | _ => .bitClockDown ((k - 2) / 3)
  else if k = 2 + 3 * w then .latchUp
  else if k = 3 + 3 * w then .latchDown
  else .done

/-- R32's column "Next event". -/
def Phase.event (o : BitOrder) (w shadow : Nat) : Phase → Option LineEvent
  | .preClearFirst => some ⟨.clr, false⟩
  | .preClearSecond => some ⟨.clr, true⟩
  | .bitData i => some ⟨.ser, sentBit o w shadow i⟩
  | .bitClockUp _ => some ⟨.sck, true⟩
  | .bitClockDown _ => some ⟨.sck, false⟩
  | .latchUp => some ⟨.lck, true⟩
  | .latchDown => some ⟨.lck, false⟩
  | .done => none

end Sys2Proof.Machine
end

