-- ==== Sys2Proof/Machine/Port.lean ====
section
/-! DEFINITION. The command port (spec/30_encoding.md R90, R107, spec/70_reset_and_hazards.md R262): what one step of
the whole system does. -/

namespace Sys2Proof.Machine

/-- The controller takes a beat: an illegal word is answered with IllegalCommand in any state (60_exceptions.md R205,
R211 step 1), a legal one is executed, whole at command level (00_scope.md R7), or begun at sequencer level
(10_state.md R33 (a)). -/
def takeBeat (b : Beat) (s : State) : Host.Outcome State Fault Refusal :=
  match decode b with
  | .error _ => .next (s.raise .illegalCommand)
  | .ok i =>
    match s.params.level with
    | .command => exec i s
    | .sequencer => .next (seqAccept i s)

/-- One step: a busy sequencer emits its next event or finishes, and takes no beat meanwhile (R107); an idle
controller takes the host's next move, and stays as it is if there is none (R262). -/
def stepOnce (s : State) : Host.Outcome State Fault Refusal :=
  match s.seq with
  | .busy i k => .next (seqAdvance i k s)
  | .idle =>
    match s.host with
    | [] => .next s
    | .reset :: rest => .next (s.setHost rest).hardwareReset
    | .beat b :: rest => takeBeat b (s.setHost rest)

end Sys2Proof.Machine
end

