-- ==== Sys2Proof/Machine/Step.lean ====
section
/-! DEFINITION. The step of the machine, and the placing of a beat as its next command (notes/assumptions/11.md). -/

namespace Sys2Proof.Machine

/-- One step of the whole system (spec/00_scope.md R7, R8). -/
def step (s : State) : Host.Outcome State Fault Refusal :=
  stepOnce s

/-- The state with the beat whose bits are `w` as the host's next move, taken by the very next step at command
level. -/
def State.withFetchWord (s : State) (nbits w : Nat) : State :=
  s.placeBeat (beatOfBits nbits w)

end Sys2Proof.Machine
end

