-- ==== Sys2Proof/Machine/Assembler.lean ====
section
/-! DEFINITION. The text of the assembly (spec/30_encoding.md R102): one command per line, a mnemonic, then operands
separated by commas; numbers decimal, `0x` or `0b`; an index may carry a minus sign; `;` starts a comment. A line is
the list of its characters. What R102 leaves open (spaces and tabs around tokens) is DESIGN CHOICE,
notes/assumptions/18.md. Nothing the machine does depends on this file (D22). -/

namespace Sys2Proof.Machine

/-- A space or a tab. -/
def isBlankChar (c : Char) : Bool := c = ' ' || c = '\t'

/-- The text without blanks at either end. -/
def trimBlanks (cs : List Char) : List Char :=
  ((cs.dropWhile isBlankChar).reverse.dropWhile isBlankChar).reverse

/-- The pieces of the text between separators. -/
def splitAtChar (sep : Char) : List Char → List (List Char)
  | [] => [[]]
  | c :: cs =>
    match splitAtChar sep cs with
    | [] => [[c]]
    | g :: gs => if c = sep then [] :: g :: gs else (c :: g) :: gs

/-- The value of a digit below the base. -/
def digitOf (base : Nat) (c : Char) : Option Nat :=
  let n := c.toNat
  let v :=
    if 48 ≤ n ∧ n ≤ 57 then n - 48
    else if 97 ≤ n ∧ n ≤ 102 then n - 87
    else if 65 ≤ n ∧ n ≤ 70 then n - 55
    else base
  if v < base then some v else none

/-- The digits read in the base, most significant first. -/
def digitsValue (base : Nat) : List Char → Nat → Option Nat
  | [], acc => some acc
  | c :: cs, acc =>
    match digitOf base c with
    | some d => digitsValue base cs (acc * base + d)
    | none => none

/-- An unsigned number: decimal, hexadecimal with `0x`, binary with `0b`. -/
def parseNumber : List Char → Option Nat
  | [] => none
  | ['0', 'x'] => none
  | ['0', 'b'] => none
  | '0' :: 'x' :: ds => digitsValue 16 ds 0
  | '0' :: 'b' :: ds => digitsValue 2 ds 0
  | ds => digitsValue 10 ds 0

/-- An index or length: a number with an optional minus sign. -/
def parseIndex : List Char → Option Int
  | '-' :: ds => (parseNumber ds).map fun n => -(n : Int)
  | ds => (parseNumber ds).map fun n => (n : Int)

/-- A bit order: `NORMAL`, `REVERSE`, or a number 0 to 3. -/
def parseOrder (cs : List Char) : Option (BitVec 2) :=
  if cs = ['N', 'O', 'R', 'M', 'A', 'L'] then some 0
  else if cs = ['R', 'E', 'V', 'E', 'R', 'S', 'E'] then some 1
  else
    match parseNumber cs with
    | some n => if n < 4 then some (BitVec.ofNat 2 n) else none
    | none => none

/-- A mnemonic with its operands, in the order of R102's table, the pseudo-forms of R105 and R106 included. -/
def parseForm (mnemonic : List Char) (operands : List (List Char)) : Option AsmForm :=
  if mnemonic = ['C', 'O', 'N', 'F', 'I', 'G'] then
    match operands with
    | [] => some .configDefault
    | [l] => (parseIndex l).map .configLen
    | [l, o] =>
      match parseIndex l, parseOrder o with
      | some n, some f => some (.full (.config n f))
      | _, _ => none
    | _ => none
  else if mnemonic = ['W', 'R', 'R', 'E', 'G'] then
    match operands with
    | [] => some .wrregNoValue
    | [v] => (parseNumber v).map fun n => .full (.wrreg n)
    | _ => none
  else
    match operands with
    | [] =>
      if mnemonic = ['C', 'L', 'E', 'A', 'R'] then some (.full .clear)
      else if mnemonic = ['R', 'D', 'R', 'E', 'G'] then some (.full .rdreg)
      else if mnemonic = ['R', 'E', 'F', 'R', 'E', 'S', 'H'] then some (.full .refresh)
      else none
    | [a] =>
      match parseIndex a with
      | none => none
      | some k =>
        if mnemonic = ['R', 'D', 'B', 'Y', 'T', 'E'] then some (.full (.rdbyte k))
        else if mnemonic = ['R', 'D', 'B', 'I', 'T'] then some (.full (.rdbit k))
        else if mnemonic = ['P', 'G', 'E', 'T'] then some (.full (.pget k))
        else if mnemonic = ['P', 'T', 'G', 'L'] then some (.full (.ptgl k))
        else if mnemonic = ['P', 'O', 'N'] then some (.full (.pon k))
        else if mnemonic = ['P', 'O', 'F', 'F'] then some (.full (.poff k))
        else none
    | [a, b] =>
      if mnemonic = ['W', 'R', 'B', 'Y', 'T', 'E'] then
        match parseNumber a, parseIndex b with
        | some y, some k => some (.full (.wrbyte y k))
        | _, _ => none
      else if mnemonic = ['W', 'R', 'B', 'I', 'T'] then
        match parseNumber a, parseIndex b with
        | some y, some k => some (.full (.wrbit y k))
        | _, _ => none
      else if mnemonic = ['P', 'S', 'E', 'T'] then
        match parseIndex a, parseNumber b with
        | some k, some y => some (.full (.pset k y))
        | _, _ => none
      else none
    | _ => none

/-- One line: `some none` is a line with no command (blank, or only a comment), `none` a line R102 does not allow. -/
def parseLine (line : List Char) : Option (Option AsmForm) :=
  let body := trimBlanks (line.takeWhile (· ≠ ';'))
  match body with
  | [] => some none
  | _ =>
    let mnemonic := body.takeWhile (fun c => !isBlankChar c)
    let rest := trimBlanks (body.dropWhile (fun c => !isBlankChar c))
    let operands :=
      match rest with
      | [] => []
      | _ => (splitAtChar ',' rest).map trimBlanks
    (parseForm mnemonic operands).map some

/-- The beats of a program text, line by line; `none` if a line is refused by the syntax or by the assembler (R102). -/
def assembleLines (p : Params) : List (List Char) → Option (List Beat)
  | [] => some []
  | l :: ls =>
    match parseLine l, assembleLines p ls with
    | some none, some bs => some bs
    | some (some a), some bs => (assemble p a).map fun b => b :: bs
    | _, _ => none

end Sys2Proof.Machine
end

