-- ==== Sys2Proof/Safety.lean ====
section
/-! DEFINITION. The terms claims use: the machine's invariant, the line environment's answers over a command, the state
a command leaves when it completes or is cut short, and when the shadow describes the chain. -/

namespace Sys2Proof.Machine

/-! ### The line environment over the next events (spec/60_exceptions.md R206) -/

/-- The next `n` events are all answered `ok`. -/
abbrev AllOk (s : State) (n : Nat) : Prop :=
  ∀ j, j < n → s.answerAt j = .ok

/-- Of the next `n` events the first one answered `fail` is number `j`, counted from 0. -/
abbrev FirstFail (s : State) (n j : Nat) : Prop :=
  j < n ∧ (∀ i, i < j → s.answerAt i = .ok) ∧ s.answerAt j = .fail

/-! ### Line levels -/

/-- The line levels after a list of events all answered `ok` (20_memory.md R58). -/
def linesAfter (ln : Lines) (es : List LineEvent) : Lines :=
  es.foldl (fun l e => l.set e.line e.level) ln

/-- Which levels are specified after a list of events all answered `ok` (60_exceptions.md R208). -/
def specifiedAfter (sp : PerLine Bool) (es : List LineEvent) : PerLine Bool :=
  es.foldl (fun k e => k.set e.line true) sp

/-- The clocks are at 0 and clear is at 1: where every command that completes leaves them (R258). -/
abbrev Quiet (ln : Lines) : Prop :=
  ln.sck = false ∧ ln.lck = false ∧ ln.clr = true

/-- The level at which a clock or the clear line rests between pulses (10_state.md R27). -/
def restLevel : Line → Option Level
  | .ser => none
  | .sck => some false
  | .lck => some false
  | .oe => none
  | .clr => some true

/-- The next drive to 1 of either clock is a rising edge: none of them is known to be at 1 (20_memory.md R65, R66). -/
abbrev ClocksReady (s : State) : Prop :=
  (s.specified.sck = true → s.lines.sck = false) ∧ (s.specified.lck = true → s.lines.lck = false)

/-! ### What a command leaves unchanged -/

/-- The parts of the system no command writes but through its host: the instance's parameters, the sequencer
(idle before, idle after), the host's remaining moves. -/
abbrev SameSurroundings (s t : State) : Prop :=
  t.params = s.params ∧ t.seq = s.seq ∧ t.host = s.host

/-- The configuration registers are unchanged (10_state.md R22 to R24). -/
abbrev SameConfiguration (s t : State) : Prop :=
  t.cfg = s.cfg ∧ t.chainLen = s.chainLen ∧ t.bitOrder = s.bitOrder

/-- `t` is `s` after exactly the events `es`, all answered `ok`, as far as lines, trace and environment go. -/
abbrev Emitted (s t : State) (es : List LineEvent) : Prop :=
  t.events = s.events ++ es ∧ t.lines = linesAfter s.lines es ∧ t.specified = specifiedAfter s.specified es ∧
  t.answers = s.answers.drop es.length ∧ t.fresh = s.fresh + es.length

/-- `t` is `s` after the events of `es` up to number `j`, which was answered `fail` (60_exceptions.md R207, R208): the
earlier ones took effect on their lines, the failing one was attempted, no later one was emitted; every line but the
failing one holds the level of its last `ok` event, the level of the failing one is unspecified; every chain cell is
undefined. -/
abbrev CutShort (s t : State) (es : List LineEvent) (j : Nat) : Prop :=
  t.events = s.events ++ es.take (j + 1) ∧
  (∀ l, (es[j]?).map LineEvent.line ≠ some l → t.lines.get l = (linesAfter s.lines (es.take j)).get l) ∧
  (∀ l, t.specified.get l =
    if (es[j]?).map LineEvent.line = some l then false else (specifiedAfter s.specified (es.take j)).get l) ∧
  t.answers = s.answers.drop (j + 1) ∧ t.fresh = s.fresh + (j + 1) ∧
  (∀ c ∈ t.stage, c = none) ∧ (∀ c ∈ t.latch, c = none)

/-- The one response added. -/
abbrev Responded (s t : State) (code : RespCode) (d : Nat) : Prop :=
  t.responses = s.responses ++ [⟨code, d⟩]

/-- What a write command does on a configured controller once its checks have passed (42_write.md R152, R155 to R158,
60_exceptions.md R207, R208), for the shadow value `v` it writes: if every one of the `24N + 4` events of the shift-out of
`v` is answered `ok` it completes with `(OK, 0)`; if event `j` is the first answered `fail` it ends there with
HardwareFault. In both cases the shadow is `v` and the configuration and the surroundings are unchanged. -/
def WritesAndShiftsOut (i : Instr) (s : State) (v : Nat) : Prop :=
  (AllOk s (24 * s.chainLen + 4) →
    ∃ t, exec i s = .next t ∧ t.shadow = v ∧ Responded s t .ok 0 ∧
      Emitted s t (shiftOutEvents s.bitOrder s.chainLen v) ∧ SameConfiguration s t ∧ SameSurroundings s t) ∧
  (∀ j, FirstFail s (24 * s.chainLen + 4) j →
    ∃ t, exec i s = .next t ∧ t.shadow = v ∧ Responded s t .hardwareFault 0 ∧
      CutShort s t (shiftOutEvents s.bitOrder s.chainLen v) j ∧ SameConfiguration s t ∧ SameSurroundings s t)

/-! ### Classes of commands -/

/-- The commands that run the shift-out procedure (20_memory.md R50). -/
def isWrite : Instr → Bool
  | .config _ _ => false
  | .clear => false
  | .rdreg => false
  | .rdbyte _ => false
  | .rdbit _ => false
  | .wrreg _ => true
  | .refresh => true
  | .wrbyte _ _ => true
  | .wrbit _ _ => true
  | .pget _ => false
  | .pset _ _ => true
  | .ptgl _ => true
  | .pon _ => true
  | .poff _ => true

/-- The commands that only read the shadow (41_read.md R143). -/
def isRead : Instr → Bool
  | .config _ _ => false
  | .clear => false
  | .rdreg => true
  | .rdbyte _ => true
  | .rdbit _ => true
  | .wrreg _ => false
  | .refresh => false
  | .wrbyte _ _ => false
  | .wrbit _ _ => false
  | .pget _ => true
  | .pset _ _ => false
  | .ptgl _ => false
  | .pon _ => false
  | .poff _ => false

/-- The index of an indexed command and the capacity it is held against, bytes or bits (20_memory.md R57). -/
def indexAndCapacity : Instr → State → Option (Int × Nat)
  | .config _ _, _ => none
  | .clear, _ => none
  | .rdreg, _ => none
  | .rdbyte k, s => some (k, s.chainLen)
  | .rdbit b, s => some (b, 8 * s.chainLen)
  | .wrreg _, _ => none
  | .refresh, _ => none
  | .wrbyte _ k, s => some (k, s.chainLen)
  | .wrbit _ b, s => some (b, 8 * s.chainLen)
  | .pget p, s => some (p, 8 * s.chainLen)
  | .pset p _, s => some (p, 8 * s.chainLen)
  | .ptgl p, s => some (p, 8 * s.chainLen)
  | .pon p, s => some (p, 8 * s.chainLen)
  | .poff p, s => some (p, 8 * s.chainLen)

/-- The codes a command can end with besides IllegalState (60_exceptions.md R209). -/
def possibleCodes : Instr → List RespCode
  | .config _ _ => [.ok, .configurationError, .hardwareFault]
  | .clear => [.ok, .hardwareFault]
  | .rdreg => [.ok]
  | .rdbyte _ => [.ok, .indexError]
  | .rdbit _ => [.ok, .indexError]
  | .wrreg _ => [.ok, .hardwareFault]
  | .refresh => [.ok, .hardwareFault]
  | .wrbyte _ _ => [.ok, .indexError, .hardwareFault]
  | .wrbit _ _ => [.ok, .indexError, .hardwareFault]
  | .pget _ => [.ok, .indexError]
  | .pset _ _ => [.ok, .indexError, .hardwareFault]
  | .ptgl _ => [.ok, .indexError, .hardwareFault]
  | .pon _ => [.ok, .indexError, .hardwareFault]
  | .poff _ => [.ok, .indexError, .hardwareFault]

/-- The index or length a command's word spells (30_encoding.md R92, R93). -/
def encodedIndex : Instr → Option Int
  | .config len _ => some len
  | .clear => none
  | .rdreg => none
  | .rdbyte k => some k
  | .rdbit b => some b
  | .wrreg _ => none
  | .refresh => none
  | .wrbyte _ k => some k
  | .wrbit _ b => some b
  | .pget p => some p
  | .pset p _ => some p
  | .ptgl p => some p
  | .pon p => some p
  | .poff p => some p

/-- The value a command's data operand carries (30_encoding.md R95). -/
def encodedValue : Instr → Option Nat
  | .config _ _ => none
  | .clear => none
  | .rdreg => none
  | .rdbyte _ => none
  | .rdbit _ => none
  | .wrreg v => some v
  | .refresh => none
  | .wrbyte y _ => some y
  | .wrbit st _ => some st
  | .pget _ => none
  | .pset _ st => some st
  | .ptgl _ => none
  | .pon _ => none
  | .poff _ => none

/-- The number of events a command emits when it completes (70_reset_and_hazards.md R259). -/
def completedEventCount : Instr → State → Nat
  | .config _ _, _ => 5
  | .clear, _ => 6
  | .rdreg, _ => 0
  | .rdbyte _, _ => 0
  | .rdbit _, _ => 0
  | .wrreg _, s => 24 * s.chainLen + 4
  | .refresh, s => 24 * s.chainLen + 4
  | .wrbyte _ _, s => 24 * s.chainLen + 4
  | .wrbit _ _, s => 24 * s.chainLen + 4
  | .pget _, _ => 0
  | .pset _ _, s => 24 * s.chainLen + 4
  | .ptgl _, s => 24 * s.chainLen + 4
  | .pon _, s => 24 * s.chainLen + 4
  | .poff _, s => 24 * s.chainLen + 4

/-! ### The invariant -/

/-- Every length, index and parameter the machine holds is one the spec allows: the parameters (00_scope.md R11), while
CONFIGURED `1 <= N <= N_MAX` (10_state.md R23) and `shadow < 2^W` (R21), a chain of `8P` stages and latches (20_memory.md
R62), host beats of `DATA_W` bits (30_encoding.md R90), responses whose datum fits `DATA_W` and is 0 unless the code is
OK (R99, R100), and a busy sequencer only with a command that passed its checks, at a position within its events
(10_state.md R32). -/
abbrev State.Inv (s : State) : Prop :=
  s.params.Ok ∧
  (s.cfg = .configured → 1 ≤ s.chainLen ∧ s.chainLen ≤ s.params.nMax ∧ s.shadow < 2 ^ s.width) ∧
  s.stage.length = 8 * s.params.parts ∧ s.latch.length = 8 * s.params.parts ∧
  (∀ m ∈ s.host, match m with | .beat b => b.wellFormed s.params = true | .reset => True) ∧
  (∀ r ∈ s.responses, r.data < 2 ^ s.params.dataW ∧ (r.code = .ok ∨ r.data = 0)) ∧
  (match s.seq with
    | .idle => True
    | .busy i k => checkVerdict i s = none ∧ k ≤ (eventsOf i s).length)

/-- The event a busy sequencer emits next (10_state.md R32). -/
def State.nextEvent (s : State) : Option LineEvent :=
  match s.seq with
  | .idle => none
  | .busy i k => (eventsOf i s)[k]?

/-- Every pulse that has begun is in the hands of the command that began it: on a configured controller a clock or clear line
whose level is specified is at rest, or the very next event takes it there (70_reset_and_hazards.md R258); and a CONFIG on
its way has left the lines it has driven at the levels it drove (40_construction_and_clear.md R121). -/
abbrev State.ClocksInv (s : State) : Prop :=
  (s.cfg = .configured → ∀ l v, restLevel l = some v → s.specified.get l = true →
    s.lines.get l = v ∨ s.nextEvent = some ⟨l, v⟩) ∧
  (match s.seq with
    | .busy (.config _ _) k => ∀ e ∈ configEvents.take k, s.specified.get e.line = true ∧ s.lines.get e.line = e.level
    | _ => True)

/-! ### The chain (20_memory.md R70 to R72) -/

/-- What R70 gives for `latch[s]` and `stage[s]` after a completed shift-out: `t(W - 1 - s)` below `W`, 0 at and
above. -/
def shiftedOutCell (o : BitOrder) (w shadow : Nat) (s : Nat) : Cell :=
  if s < w then some (sentBit o w shadow (w - 1 - s)) else some false

/-- The chain's cells after a completed shift-out into a chain of `len` stages (R70). -/
def shiftedOut (o : BitOrder) (w shadow len : Nat) : List Cell :=
  (List.range len).map (shiftedOutCell o w shadow)

/-- `InSync` (R72), judged on the stages that exist (R78): the outputs are enabled and every latch below `W` holds
what R70 gives for the present shadow and bit order. -/
abbrev State.InSync (s : State) : Prop :=
  s.lines.oe = false ∧
  ∀ n, n < s.width → n < s.latch.length →
    s.latch[n]? = some (shiftedOutCell s.bitOrder s.width s.shadow n)

end Sys2Proof.Machine
end

