-- ==== Sys2Proof/Certificates/Slice0/Obligations.lean ====
section
/-! DEFINITION. The statements about the model, each from the numbered rules of spec/ its docstring names. -/

open Sys2Proof Sys2Proof.Machine

/-! ### Encoding (spec/30_encoding.md) -/

/-- Every encoded example of 30_encoding.md section 6 and every word of 95_test_vectors.md section 2.6 decodes as the spec
says (R91, R96, R98, R102); the last conjuncts are words written out from R91's fields and R96's rows for the commands and
field limits those lists leave out. -/
def Obligations.EncodedExamplesDecode : Prop :=
  (decode ⟨0x10000002, 0⟩ = .ok (.config 2 0) ∧
    decode ⟨0x10010001, 0⟩ = .ok (.config 1 1) ∧
    decode ⟨0x10000000, 0⟩ = .ok (.config 0 0) ∧
    decode ⟨0x1000FFFF, 0⟩ = .ok (.config (-1) 0) ∧
    decode ⟨0x10020001, 0⟩ = .ok (.config 1 2) ∧
    decode ⟨0x60000000, 0x1234⟩ = .ok (.wrreg 0x1234) ∧
    decode ⟨0x40000001, 0⟩ = .ok (.rdbyte 1) ∧
    decode ⟨0x50000009, 0⟩ = .ok (.rdbit 9) ∧
    decode ⟨0x5000FFFF, 0⟩ = .ok (.rdbit (-1)) ∧
    decode ⟨0x80000000, 0xFF⟩ = .ok (.wrbyte 0xFF 0) ∧
    decode ⟨0x90000009, 1⟩ = .ok (.wrbit 1 9) ∧
    decode ⟨0xB0000003, 1⟩ = .ok (.pset 3 1) ∧
    decode ⟨0xC0000003, 0⟩ = .ok (.ptgl 3)) ∧
  (∀ cd, decode ⟨0x00000000, cd⟩ = .error .reservedOp ∧
    decode ⟨0x20000001, cd⟩ = .error .nonzeroLow ∧
    decode ⟨0x50010000, cd⟩ = .error .nonzeroOrder ∧
    decode ⟨0xF0000000, cd⟩ = .error .reservedOp ∧
    decode ⟨0x10040001, cd⟩ = .error .nonzeroZ ∧
    decode ⟨0x60000001, cd⟩ = .error .nonzeroLow ∧
    decode ⟨0x78000000, cd⟩ = .error .nonzeroZ ∧
    decode ⟨0x20000000, cd⟩ = .ok .clear ∧
    decode ⟨0x50000000, cd⟩ = .ok (.rdbit 0) ∧
    decode ⟨0x10000001, cd⟩ = .ok (.config 1 0) ∧
    decode ⟨0x60000000, cd⟩ = .ok (.wrreg cd) ∧
    decode ⟨0x70000000, cd⟩ = .ok .refresh ∧
    decode ⟨0x30000000, cd⟩ = .ok .rdreg) ∧
  (decode ⟨0x1003FFFF, 0⟩ = .ok (.config (-1) 3) ∧
    decode ⟨0x50008000, 0⟩ = .ok (.rdbit (-32768)) ∧
    decode ⟨0x8000FFFF, 0x55⟩ = .ok (.wrbyte 0x55 (-1)) ∧
    decode ⟨0xA0000003, 0⟩ = .ok (.pget 3) ∧
    decode ⟨0xD0007FFF, 0⟩ = .ok (.pon 32767) ∧
    decode ⟨0xE0000007, 0⟩ = .ok (.poff 7))

/-- Decoding the beat of a well-formed command gives the command back, for every command and every operand the
encoding admits (R91 to R97, R102). -/
def Obligations.DecodeOfEncode : Prop :=
  ∀ (p : Params) (i : Instr), i.wellFormed p = true → decode (encode i) = .ok i

/-- A legal command word is the word of the command it decodes to, the command it decodes to is well-formed, and the
data operand is either carried unchanged or ignored (R91, R95, R97). -/
def Obligations.EncodeOfDecode : Prop :=
  ∀ (p : Params) (b : Beat) (i : Instr), b.wellFormed p = true → decode b = .ok i →
    (encode i).cw = b.cw ∧ ((encode i).cd = b.cd ∨ (encode i).cd = 0) ∧ i.wellFormed p = true

/-- A command word spells a row of the opcode map exactly when it decodes to that row's command, it is illegal exactly
when it matches no row, and no word matches two rows (R96, R97). -/
def Obligations.DecodeFollowsOpcodeMap : Prop :=
  ∀ b : Beat,
    (∀ r ∈ opcodeTable, r.Matches b.cw ↔ ∃ i, decode b = .ok i ∧ i.mnemonic = r.mnemonic) ∧
    ((∃ e, decode b = .error e) ↔ ∀ r ∈ opcodeTable, ¬ r.Matches b.cw) ∧
    (∀ r ∈ opcodeTable, ∀ r' ∈ opcodeTable, r.Matches b.cw → r'.Matches b.cw → r = r')

/-- R98 (the spec's decision D6): which words are illegal, and that an illegal command is answered with IllegalCommand,
changes no state and emits no event, whatever the state. -/
def Obligations.IllegalEncodings : Prop :=
  ∀ (b : Beat),
    ((∃ e, decode b = .error e) ↔
      (opField b.cw = 0 ∨ opField b.cw = 15 ∨ zField b.cw ≠ 0 ∨ (opField b.cw ≠ 1 ∧ orderField b.cw ≠ 0) ∨
        ((opField b.cw = 2 ∨ opField b.cw = 3 ∨ opField b.cw = 6 ∨ opField b.cw = 7) ∧ lowField b.cw ≠ 0))) ∧
    ((∃ e, decode b = .error e) → ∀ s : State,
      takeBeat b s = .next { s with responses := s.responses ++ [⟨.illegalCommand, 0⟩] })

/-- The pseudo-forms of R105 and R106; and what the assembler refuses (R102): a command is refused exactly when the index or
length it names is outside `-32768 .. 32767` or its value does not fit `DATA_W` bits, whichever command it is, and one that is
not refused is given as its encoding. -/
def Obligations.AssemblerForms : Prop :=
  ∀ p : Params,
    assemble p .configDefault = some ⟨0x10000001, 0⟩ ∧
    assemble p (.configLen 1) = some ⟨0x10000001, 0⟩ ∧
    assemble p .wrregNoValue = some ⟨0x70000000, 0⟩ ∧
    (∀ len : Int, assemble p (.configLen len) = assemble p (.full (.config len 0))) ∧
    (∀ i : Instr, assemble p (.full i) = none ↔
      (∃ k, encodedIndex i = some k ∧ (k < -32768 ∨ 32767 < k)) ∨
      (∃ v, encodedValue i = some v ∧ 2 ^ p.dataW ≤ v)) ∧
    (∀ (i : Instr) (b : Beat), assemble p (.full i) = some b → b = encode i)

/-! ### The step -/

/-- An idle controller at command level that finds a legal beat runs its command, with the beat taken off the host's
list (00_scope.md R7, 70_reset_and_hazards.md R262). -/
def Obligations.StepRunsDecodedCommand : Prop :=
  ∀ (s : State) (b : Beat) (rest : List HostMove) (i : Instr),
    s.seq = .idle → s.params.level = .command → s.host = .beat b :: rest → decode b = .ok i →
      step s = exec i { s with host := rest }

/-- R205 (the spec's decision D6): a beat whose word matches no row of the opcode map is answered (IllegalCommand, 0);
nothing else changes, whatever CFG_STATE and the level of description are. -/
def Obligations.StepAnswersIllegalCommand : Prop :=
  ∀ (s : State) (b : Beat) (rest : List HostMove),
    s.seq = .idle → s.host = .beat b :: rest → (∀ r ∈ opcodeTable, ¬ r.Matches b.cw) →
      step s = .next { s with host := rest, responses := s.responses ++ [⟨.illegalCommand, 0⟩] }

/-- The host's reset leaves the controller as R36 and R240 say and the chain undefined (the last is the model's
choice, notes/assumptions/13.md); no response, no event (R262). What the line levels are is not said. -/
def Obligations.HostResetUnconfigures : Prop :=
  ∀ (s : State) (rest : List HostMove), s.seq = .idle → s.host = .reset :: rest →
    ∃ t, step s = .next t ∧ t.cfg = .unconfigured ∧ t.seq = .idle ∧ t.host = rest ∧ t.params = s.params ∧
      t.responses = s.responses ∧ t.events = s.events ∧
      t.stage = List.replicate s.stage.length none ∧ t.latch = List.replicate s.latch.length none

/-- With no move of the host the idle controller stays as it is (R262); no state stops the machine (60_exceptions.md
R216). -/
def Obligations.StepNeverStops : Prop :=
  (∀ s : State, s.seq = .idle → s.host = [] → step s = .next s) ∧ (∀ s : State, ∃ t, step s = .next t)

/-- While busy the controller takes no beat, and it gives at most one response, in becoming idle (R107, 10_state.md
R33). -/
def Obligations.BusyTakesNoBeat : Prop :=
  ∀ (s : State) (i : Instr) (k : Nat), s.seq = .busy i k →
    ∃ t, step s = .next t ∧ t.host = s.host ∧
      ((t.seq = .busy i (k + 1) ∧ t.responses = s.responses ∧ ∃ e, t.events = s.events ++ [e]) ∨
        (t.seq = .idle ∧ ∃ r, t.responses = s.responses ++ [r]))

/-! ### Reset and the invariants -/

/-- R36 (the spec's own choice but for the chain) as far as it gives values, for every instance: UNCONFIGURED, sequencer
idle, every stage and latch of the `8P` undefined. -/
def Obligations.ResetState : Prop :=
  ∀ p : Params, (State.resetOf p).cfg = .unconfigured ∧ (State.resetOf p).seq = .idle ∧
    (State.resetOf p).stage = List.replicate (8 * p.parts) none ∧
    (State.resetOf p).latch = List.replicate (8 * p.parts) none ∧
    (∀ i, (∀ len order, i ≠ .config len order) → ∀ s, s = State.resetOf p →
      exec i s = .next { s with responses := [⟨.illegalState, 0⟩] })

/-- The invariants hold at reset, for every instance whose parameters the spec allows and for the reference one. -/
def Obligations.InvHoldsAtReset : Prop :=
  (∀ p : Params, p.Ok → (State.resetOf p).Inv ∧ (State.resetOf p).ClocksInv) ∧
  State.reset.Inv ∧ State.reset.ClocksInv

/-- Every step keeps the invariants: `shadow < 2^W` and `1 <= N <= N_MAX` while CONFIGURED (10_state.md R21, R23), a chain
of `8P` cells, responses that fit the port (R99, R100), a busy sequencer within its events (R32); and, with them, that on a
configured controller a clock or clear line is away from its rest level only within a pulse, or where a failed drive has left
its level unspecified (R258, R208). -/
def Obligations.StepKeepsInv : Prop :=
  ∀ s t : State, s.Inv → step s = .next t → t.Inv ∧ (s.ClocksInv → t.ClocksInv)

/-- While CONFIGURED nothing but the host's reset changes CFG_STATE, CHAIN_LEN or BIT_ORDER (10_state.md R22 to R24,
40_construction_and_clear.md R124); and no step changes the instance's parameters, which is the model's choice: that N_MAX,
DATA_W, P and LINE_FAULTS (open, 00_scope.md R11) stand in the state is notes/assumptions/2.md, that the level of description
does is notes/assumptions/1.md. -/
def Obligations.OnlyResetUndoesConstruction : Prop :=
  ∀ s t : State, s.Inv → step s = .next t →
    t.params = s.params ∧
    (s.cfg = .configured → (s.seq = .idle → ∀ rest, s.host ≠ .reset :: rest) →
      t.cfg = .configured ∧ t.chainLen = s.chainLen ∧ t.bitOrder = s.bitOrder)

/-- While UNCONFIGURED no command reads CHAIN_LEN, BIT_ORDER or the shadow: other contents give the same result, up to
those contents where no construction has overwritten them (10_state.md R22, R36; the contents at reset are the model's
choice, notes/assumptions/6.md). -/
def Obligations.UnconfiguredRegistersAreNeverRead : Prop :=
  ∀ (i : Instr) (s t : State) (n : Nat) (o : BitOrder) (v : Nat),
    s.cfg = .unconfigured → exec i s = .next t →
      exec i { s with chainLen := n, bitOrder := o, shadow := v } =
        .next (if t.cfg = .configured then t else { t with chainLen := n, bitOrder := o, shadow := v })

/-- R68 and R35: nothing flows from the chain to the controller: with other chain contents a step does the same to
everything but the chain. -/
def Obligations.ChainIsNeverRead : Prop :=
  ∀ (s t : State) (stage latch : List Cell), step s = .next t →
    ∃ stage' latch', step { s with stage := stage, latch := latch } = .next { t with stage := stage', latch := latch' }

/-! ### CONFIG and CLEAR (spec/40_construction_and_clear.md) -/

/-- R120, R121 (the order of the five events and `SER=0` are the spec's decision D10): a CONFIG of an unconfigured
controller with a length in `1 .. N_MAX` and a recognised order completes when its five events are answered `ok`: the
five events in order, the registers, the five line levels; the chain keeps its contents. -/
def Obligations.ConfigCompletes : Prop :=
  ∀ (s : State) (len : Int) (order : BitVec 2) (o : BitOrder),
    s.cfg = .unconfigured → 1 ≤ len → len ≤ s.params.nMax →
    ((order = 0 ∧ o = .normalLSBFirst) ∨ (order = 1 ∧ o = .reverseMSBFirst)) → AllOk s 5 →
      exec (.config len order) s = .next { s with
        cfg := .configured
        chainLen := len.toNat
        bitOrder := o
        shadow := 0
        lines := { ser := false, sck := false, lck := false, oe := false, clr := true }
        specified := { ser := true, sck := true, lck := true, oe := true, clr := true }
        events := s.events ++ [⟨.clr, true⟩, ⟨.oe, false⟩, ⟨.sck, false⟩, ⟨.lck, false⟩, ⟨.ser, false⟩]
        responses := s.responses ++ [⟨.ok, 0⟩]
        answers := s.answers.drop 5
        fresh := s.fresh + 5 }

/-- R124 (the spec's decision D3): CONFIG when already CONFIGURED is refused with IllegalState, changes nothing and
emits no event. -/
def Obligations.ConfigWhenConfiguredRefused : Prop :=
  ∀ (s : State) (len : Int) (order : BitVec 2), s.cfg = .configured →
    exec (.config len order) s = .next { s with responses := s.responses ++ [⟨.illegalState, 0⟩] }

/-- R123, R201: the three causes of ConfigurationError (the third, above `N_MAX`, is the spec's decision D11), each
alone or together; nothing else changes. -/
def Obligations.ConfigurationErrorCauses : Prop :=
  ∀ (s : State) (len : Int) (order : BitVec 2), s.cfg = .unconfigured →
    (len ≤ 0 ∨ order = 2 ∨ order = 3 ∨ (s.params.nMax : Int) < len) →
      exec (.config len order) s = .next { s with responses := s.responses ++ [⟨.configurationError, 0⟩] }

/-- R122, R207, R208 (the spec's decisions D10 and D13): a CONFIG one of whose events is answered `fail` ends with
HardwareFault; the events before took effect, the failed line's level is unspecified, and no register is written. -/
def Obligations.ConfigCutShort : Prop :=
  ∀ (s : State) (len : Int) (order : BitVec 2) (j : Nat),
    s.cfg = .unconfigured → 1 ≤ len → len ≤ s.params.nMax → (order = 0 ∨ order = 1) → FirstFail s 5 j →
      ∃ t, exec (.config len order) s = .next t ∧ Responded s t .hardwareFault 0 ∧
        CutShort s t [⟨.clr, true⟩, ⟨.oe, false⟩, ⟨.sck, false⟩, ⟨.lck, false⟩, ⟨.ser, false⟩] j ∧
        SameConfiguration s t ∧ t.shadow = s.shadow ∧ SameSurroundings s t

/-- CLEAR completes on a configured controller when its six events are answered `ok` (R125): the events in order, the
shadow 0, `OE = 0`, `CLR = 1`, `LCK = 0`, `SER` and `SCK` as they were (R126). -/
def Obligations.ClearCompletes : Prop :=
  ∀ s : State, s.cfg = .configured → AllOk s 6 →
    ∃ t, exec .clear s = .next t ∧ t.shadow = 0 ∧ Responded s t .ok 0 ∧
      Emitted s t [⟨.oe, true⟩, ⟨.clr, false⟩, ⟨.clr, true⟩, ⟨.lck, true⟩, ⟨.lck, false⟩, ⟨.oe, false⟩] ∧
      t.lines = { s.lines with oe := false, clr := true, lck := false } ∧
      SameConfiguration s t ∧ SameSurroundings s t

/-- What a completed CLEAR does to the chain (R126, R72, R217, on the edges of notes/assumptions/10.md): every stage is 0,
every latch is 0, every output shows 0, and `InSync` holds, also after a failed drive of any line (R208; after one of `LCK`
on the edge of notes/assumptions/9.md). The premise on
`LCK`, that it is not known to be at 1, holds of every idle configured controller a run reaches: it is part of the invariant
`ClocksInv`. -/
def Obligations.ClearZeroesChain : Prop :=
  ∀ s : State, s.cfg = .configured → AllOk s 6 →
    ∃ t, exec .clear s = .next t ∧ t.stage = List.replicate s.stage.length (some false) ∧
      ((s.specified.lck = true → s.lines.lck = false) →
        t.latch = List.replicate s.stage.length (some false) ∧
        t.out = List.replicate s.stage.length (.level false) ∧ t.InSync)

/-- During CLEAR, from its first event to before its last, every output is in the high-impedance state (R126, R67). -/
def Obligations.ClearHidesOutputs : Prop :=
  ∀ (s : State) (j : Nat), 1 ≤ j → j ≤ 5 → AllOk s j →
    ∃ t, emit (clearEvents.take j) s = (t, .ok) ∧ ∀ p ∈ t.out, p = .highZ

/-- CLEAR cut short at event `j` counted from 0 (R127): HardwareFault, the shadow keeps its value, and for the second to
the fifth event `OE` is left at 1, so that every output is in the high-impedance state. (For the sixth, whose line is
`OE` itself, R208 leaves the level unspecified: notes/assumptions/9.md.) -/
def Obligations.ClearCutShort : Prop :=
  ∀ (s : State) (j : Nat), s.cfg = .configured → FirstFail s 6 j →
    ∃ t, exec .clear s = .next t ∧ Responded s t .hardwareFault 0 ∧ t.shadow = s.shadow ∧
      CutShort s t [⟨.oe, true⟩, ⟨.clr, false⟩, ⟨.clr, true⟩, ⟨.lck, true⟩, ⟨.lck, false⟩, ⟨.oe, false⟩] j ∧
      (1 ≤ j → j ≤ 4 → t.lines.oe = true ∧ ∀ p ∈ t.out, p = .highZ) ∧
      SameConfiguration s t ∧ SameSurroundings s t

/-! ### Errors (spec/60_exceptions.md) -/

/-- R204 (the spec's decision D14): CONFIG while CONFIGURED, or any of the other thirteen commands while UNCONFIGURED,
is answered IllegalState whatever its operands; no state changes, no event is emitted. -/
def Obligations.IllegalStateRefusals : Prop :=
  ∀ (i : Instr) (s : State),
    ((∃ len order, i = .config len order) ∧ s.cfg = .configured ∨
      (∀ len order, i ≠ .config len order) ∧ s.cfg = .unconfigured) →
        exec i s = .next { s with responses := s.responses ++ [⟨.illegalState, 0⟩] }

/-- R202, R57: an indexed command on a configured controller answers IndexError exactly when its index is negative or
at or above the capacity, `N` bytes or `8N` bits, and then nothing else changes. -/
def Obligations.IndexErrors : Prop :=
  ∀ (i : Instr) (s : State) (k : Int) (capacity : Nat),
    s.cfg = .configured → indexAndCapacity i s = some (k, capacity) →
      ((k < 0 ∨ (capacity : Int) ≤ k) →
        exec i s = .next { s with responses := s.responses ++ [⟨.indexError, 0⟩] }) ∧
      (0 ≤ k → k < capacity →
        ∃ t r, exec i s = .next t ∧ t.responses = s.responses ++ [r] ∧ r.code ≠ .indexError)

/-- Every command gives exactly one response (R99); an error response has `RD = 0` (R200); and after any error but
HardwareFault the state is the one before, but for the response (R213). -/
def Obligations.ErrorsArePrecise : Prop :=
  ∀ (i : Instr) (s : State), ∃ t r, exec i s = .next t ∧ t.responses = s.responses ++ [r] ∧
    (r.code ≠ .ok → r.data = 0) ∧
    (r.code ≠ .ok → r.code ≠ .hardwareFault → t = { s with responses := s.responses ++ [r] })

/-- R209: which command can end with which code: IllegalState exactly where CFG_STATE is not the one the command requires
(R204), elsewhere one of the codes of the table's row, and each code of the row does occur, for some operands of the command
in some state. R99: the number of each code, and that a response stands on the port as that number in four bits and its datum
in `DATA_W` bits (the numbers are the spec's decision D8). -/
def Obligations.CodesOfEachCommand : Prop :=
  (∀ (i : Instr) (s t : State) (r : Response), exec i s = .next t → t.responses = s.responses ++ [r] →
    (r.code = .illegalState ↔ s.cfg ≠ requiredCfg i) ∧ (s.cfg = requiredCfg i → r.code ∈ possibleCodes i)) ∧
  (∀ (i : Instr), ∀ c ∈ possibleCodes i, ∃ (i' : Instr) (s t : State) (d : Nat),
    i'.mnemonic = i.mnemonic ∧ s.cfg = requiredCfg i' ∧ exec i' s = .next t ∧ Responded s t c d) ∧
  (∀ (p : Params) (r : Response),
    (r.bits p).1.toNat = (match r.code with
      | .ok => 0
      | .configurationError => 1
      | .indexError => 2
      | .hardwareFault => 3
      | .illegalState => 4
      | .illegalCommand => 5) ∧
    (r.data < 2 ^ p.dataW → (r.bits p).2.toNat = r.data))

/-- R206 (the parameter LINE_FAULTS is the spec's decision D13): where line faults are off no command ends with
HardwareFault. -/
def Obligations.NoHardwareFaultWithoutLineFaults : Prop :=
  ∀ (i : Instr) (s t : State) (r : Response), s.params.lineFaults = false → exec i s = .next t →
    t.responses = s.responses ++ [r] → r.code ≠ .hardwareFault

/-! ### The reads (spec/41_read.md, spec/43_pin_facade.md) -/

/-- RDREG on a configured controller answers the whole shadow and changes nothing else (R140, R143). -/
def Obligations.RdregAnswersShadow : Prop :=
  ∀ s : State, s.cfg = .configured →
    exec .rdreg s = .next { s with responses := s.responses ++ [⟨.ok, s.shadow⟩] }

/-- RDBYTE `k`, `0 <= k < N`, answers `(shadow >> 8k) & 0xFF` and changes nothing else (R141, R143). -/
def Obligations.RdbyteAnswersByte : Prop :=
  ∀ (s : State) (k : Nat), s.cfg = .configured → k < s.chainLen →
    exec (.rdbyte k) s = .next { s with responses := s.responses ++ [⟨.ok, s.shadow / 2 ^ (8 * k) % 256⟩] }

/-- RDBIT and PGET `b`, `0 <= b < 8N`, answer bit `b` of the shadow and change nothing else (R142, R181). -/
def Obligations.RdbitAndPgetAnswerBit : Prop :=
  ∀ (s : State) (b : Nat), s.cfg = .configured → b < 8 * s.chainLen →
    exec (.rdbit b) s = .next { s with responses := s.responses ++ [⟨.ok, (s.shadow.testBit b).toNat⟩] } ∧
    exec (.pget b) s = .next { s with responses := s.responses ++ [⟨.ok, (s.shadow.testBit b).toNat⟩] }

/-- R51, R143: a read, in any state and with any index, emits no line event, writes no state and cannot end with
HardwareFault, and its response is the same in any two states with the same CFG_STATE, `N` and shadow: it does not
depend on BIT_ORDER, on the lines, on the chain or on the reads before it. -/
def Obligations.ReadsAreOfTheShadow : Prop :=
  ∀ (i : Instr) (s s' : State), isRead i = true → s'.cfg = s.cfg → s'.chainLen = s.chainLen → s'.shadow = s.shadow →
    ∃ r : Response, r.code ≠ .hardwareFault ∧
      exec i s = .next { s with responses := s.responses ++ [r] } ∧
      exec i s' = .next { s' with responses := s'.responses ++ [r] }

/-- R54: bit `b` of the register is `(shadow >> b) & 1`, and it is the bit at position `b mod 8` of byte `b div 8`: what RDBIT
`b` answers is that bit of what RDBYTE `b div 8` answers. -/
def Obligations.BitLiesInByte : Prop :=
  ∀ (s : State) (b : Nat), s.cfg = .configured → b < 8 * s.chainLen →
    ∃ x y : Nat,
      exec (.rdbit b) s = .next { s with responses := s.responses ++ [⟨.ok, x⟩] } ∧
      exec (.rdbyte (b / 8 : Nat)) s = .next { s with responses := s.responses ++ [⟨.ok, y⟩] } ∧
      x = (s.shadow >>> b) % 2 ∧ x = (y.testBit (b % 8)).toNat ∧ y < 256 ∧
      ∀ j, j < 8 → y.testBit j = s.shadow.testBit (8 * (b / 8) + j)

/-! ### The merge primitive and the shift-out procedure (spec/42_write.md) -/

/-- R150: `Merge1(b, x)`, `b < W`, sets bit `b` to `x`, changes no other bit, keeps the shadow below `2^W`, and changes
nothing else (no line event). -/
def Obligations.MergeOneBit : Prop :=
  ∀ (s : State) (b x : Nat), b < s.width → x < 2 → s.shadow < 2 ^ s.width →
    ∃ v, s.merge1 b x = { s with shadow := v } ∧ v < 2 ^ s.width ∧
      v = (s.shadow &&& (2 ^ s.width - 1 - 2 ^ b)) ||| (x <<< b) ∧
      ∀ j, v.testBit j = if j = b then decide (x = 1) else s.shadow.testBit j

/-- R151: `Merge8(k, y)`, `k < N`, sets bits `8k .. 8k+7` to `y` and changes no other bit and nothing else. -/
def Obligations.MergeOneByte : Prop :=
  ∀ (s : State) (k y : Nat), k < s.chainLen → y < 256 → s.shadow < 2 ^ s.width →
    ∃ v, s.merge8 k y = { s with shadow := v } ∧ v < 2 ^ s.width ∧
      v = (s.shadow &&& (2 ^ s.width - 1 - 255 * 2 ^ (8 * k))) ||| (y <<< (8 * k)) ∧
      ∀ j, v.testBit j = if 8 * k ≤ j ∧ j < 8 * k + 8 then y.testBit (j - 8 * k) else s.shadow.testBit j

/-- R153, R154 (that bit `W` reads as 0 is the spec's decision D12): the bits sent on `SER`, in order: `shadow[i]` in
NormalLSBFirst; in ReverseMSBFirst first a 0, then `shadow[W - i]`. Two shadows that differ only in bit 0 give the same
events in ReverseMSBFirst. -/
def Obligations.SerialBitSequence : Prop :=
  ∀ n v : Nat,
    (v < 2 ^ (8 * n) →
      ((shiftOutEvents .normalLSBFirst n v).filter (fun e => e.line = .ser)).map LineEvent.level =
        (List.range (8 * n)).map (fun i => v.testBit i) ∧
      ((shiftOutEvents .reverseMSBFirst n v).filter (fun e => e.line = .ser)).map LineEvent.level =
        (List.range (8 * n)).map (fun i => if i = 0 then false else v.testBit (8 * n - i))) ∧
    (∀ v', (∀ j, j ≠ 0 → v.testBit j = v'.testBit j) →
      shiftOutEvents .reverseMSBFirst n v = shiftOutEvents .reverseMSBFirst n v')

/-- R159: in the events of a shift-out `LCK=1` occurs exactly once, after every `SCK` event, and no `LCK` event comes
before it. -/
def Obligations.LatchComesOnceAtEnd : Prop :=
  ∀ (o : BitOrder) (n v : Nat), ∃ before after,
    shiftOutEvents o n v = before ++ [⟨.lck, true⟩] ++ after ∧
    (∀ e ∈ before, e.line ≠ .lck) ∧ (∀ e ∈ after, e ≠ ⟨.lck, true⟩ ∧ e.line ≠ .sck)

/-- R32: the count `k` of events emitted decodes to the phase whose next event is event number `k` of the shift-out,
and there is none at `4 + 3W`. -/
def Obligations.SequencerPhases : Prop :=
  ∀ (o : BitOrder) (n v k : Nat), k ≤ 4 + 3 * (8 * n) →
    (shiftOutEvents o n v)[k]? = (phaseAt (8 * n) k).event o (8 * n) v

/-! ### The writes (spec/42_write.md, spec/43_pin_facade.md) -/

/-- WRREG `v` writes `v & mask(W)`, then shifts it out (R155, R160). -/
def Obligations.WrregWrites : Prop :=
  ∀ (s : State) (v : Nat), s.cfg = .configured →
    WritesAndShiftsOut (.wrreg v) s (v % 2 ^ (8 * s.chainLen))

/-- REFRESH shifts the shadow out and does not write it (R156). -/
def Obligations.RefreshShiftsOut : Prop :=
  ∀ s : State, s.cfg = .configured → WritesAndShiftsOut .refresh s s.shadow

/-- WRBYTE `y, k`, `0 <= k < N`: byte `k` becomes `y & 0xFF`, every other bit of the shadow is unchanged, then it is shifted
out (R157, R151, R162). -/
def Obligations.WrbyteWrites : Prop :=
  ∀ (s : State) (y k : Nat), s.cfg = .configured → k < s.chainLen → s.shadow < 2 ^ (8 * s.chainLen) →
    ∃ v, WritesAndShiftsOut (.wrbyte y k) s v ∧
      ∀ j, v.testBit j = if 8 * k ≤ j ∧ j < 8 * k + 8 then y.testBit (j - 8 * k) else s.shadow.testBit j

/-- WRBIT `st, b` and PSET `b, st`, `0 <= b < 8N`: bit `b` becomes `st & 1`, every other bit of the shadow is unchanged,
then it is shifted out (R158, R182, R162). -/
def Obligations.WrbitAndPsetWrite : Prop :=
  ∀ (s : State) (st b : Nat), s.cfg = .configured → b < 8 * s.chainLen → s.shadow < 2 ^ (8 * s.chainLen) →
    ∃ v, WritesAndShiftsOut (.wrbit st b) s v ∧ WritesAndShiftsOut (.pset b st) s v ∧
      ∀ j, v.testBit j = if j = b then decide (st % 2 = 1) else s.shadow.testBit j

/-- PTGL `p`, `0 <= p < 8N`: bit `p` becomes its negation, every other bit of the shadow is unchanged, and the shadow is
shifted out once (R184). -/
def Obligations.PtglToggles : Prop :=
  ∀ (s : State) (p : Nat), s.cfg = .configured → p < 8 * s.chainLen → s.shadow < 2 ^ (8 * s.chainLen) →
    ∃ v, WritesAndShiftsOut (.ptgl p) s v ∧
      ∀ j, v.testBit j = if j = p then !s.shadow.testBit p else s.shadow.testBit j

/-- PON `p` sets and POFF `p` clears bit `p`, `0 <= p < 8N`; every other bit of the shadow is unchanged, then it is shifted
out (R185, R186). -/
def Obligations.PonAndPoffWrite : Prop :=
  ∀ (s : State) (p : Nat), s.cfg = .configured → p < 8 * s.chainLen → s.shadow < 2 ^ (8 * s.chainLen) →
    (∃ v, WritesAndShiftsOut (.pon p) s v ∧ ∀ j, v.testBit j = if j = p then true else s.shadow.testBit j) ∧
    (∃ v, WritesAndShiftsOut (.poff p) s v ∧ ∀ j, v.testBit j = if j = p then false else s.shadow.testBit j)

/-- R108, R180 (separate opcodes: the spec's decision D5): the facade commands are the driver's: `PGET p` is RDBIT,
`PSET p, st` is `WRBIT st, p`, `PON p` is `PSET p, 1`, `POFF p` is `PSET p, 0`, in every state, errors included. -/
def Obligations.FacadeDelegates : Prop :=
  ∀ (s : State) (p : Int) (st : Nat),
    exec (.pget p) s = exec (.rdbit p) s ∧ exec (.pset p st) s = exec (.wrbit st p) s ∧
    exec (.pon p) s = exec (.pset p 1) s ∧ exec (.poff p) s = exec (.pset p 0) s

/-- R163: the events of a completed write depend on `N`, BIT_ORDER and the shadow it leaves only: two write commands, in
any two states that agree on these, emit the same list. -/
def Obligations.WriteEventsDependOnShadowOnly : Prop :=
  ∀ (i i' : Instr) (s s' t t' : State), isWrite i = true → isWrite i' = true →
    exec i s = .next t → exec i' s' = .next t' → Responded s t .ok 0 → Responded s' t' .ok 0 →
    s.chainLen = s'.chainLen → s.bitOrder = s'.bitOrder → t.shadow = t'.shadow →
      ∃ es, t.events = s.events ++ es ∧ t'.events = s'.events ++ es

/-- R259: how many line events a command has emitted that completes, or that ends with an error other than
HardwareFault; and a beat that spells no command emits none. -/
def Obligations.EventCounts : Prop :=
  (∀ (i : Instr) (s t : State) (c : RespCode) (d : Nat), exec i s = .next t → Responded s t c d →
    (c = .ok → t.events.length = s.events.length + completedEventCount i s) ∧
    (c ≠ .ok → c ≠ .hardwareFault → t.events.length = s.events.length)) ∧
  (∀ (b : Beat) (e : Illegal) (s t : State), decode b = .error e → takeBeat b s = .next t →
    Responded s t .illegalCommand 0 ∧ t.events.length = s.events.length)

/-- R258: every pulse a command starts it ends before it responds: after a CONFIG or a write that completes the clocks are at
0 and clear at 1, and every other command that completes keeps them there. From a state that meets the invariant `ClocksInv`,
every command that completes leaves the clocks and the clear line at rest, but for one a failed drive left unspecified and no
event has driven since (notes/assumptions/9.md); and an idle configured controller in such a state is ready to clock. -/
def Obligations.PulsesEndBeforeResponse : Prop :=
  (∀ (i : Instr) (s t : State) (d : Nat), s.Inv → exec i s = .next t → Responded s t .ok d →
    ((isWrite i = true ∨ ∃ len order, i = .config len order) → Quiet t.lines) ∧
    (Quiet s.lines → Quiet t.lines) ∧
    (s.seq = .idle → s.ClocksInv → ∀ l v, restLevel l = some v → t.specified.get l = true → t.lines.get l = v)) ∧
  (∀ s : State, s.cfg = .configured → s.seq = .idle → s.ClocksInv → ClocksReady s)

/-! ### Laws over two commands -/

/-- The truncation law and the byte law (41_read.md R140, R141): after a WRREG `v` that completes, RDREG answers `v mod
2^(8N)` and RDBYTE `k` answers `(v >> 8k) & 0xFF`, in either bit order. -/
def Obligations.TruncationAndByteLaw : Prop :=
  ∀ (s : State) (v k : Nat), s.cfg = .configured → AllOk s (24 * s.chainLen + 4) → k < s.chainLen →
    ∃ t, exec (.wrreg v) s = .next t ∧
      exec .rdreg t = .next { t with responses := t.responses ++ [⟨.ok, v % 2 ^ (8 * s.chainLen)⟩] } ∧
      exec (.rdbyte k) t = .next { t with responses := t.responses ++ [⟨.ok, v / 2 ^ (8 * k) % 256⟩] }

/-- R187: after two PTGL `p` that complete with no write between them (whatever else happened between them, the shadow and the
configuration are those the first left) the shadow is what it was before the first, and the two together emit `2 (24N + 4)`
events. -/
def Obligations.ToggleTwiceRestores : Prop :=
  ∀ (s t t' u : State) (p : Int), s.shadow < 2 ^ (8 * s.chainLen) →
    exec (.ptgl p) s = .next t → Responded s t .ok 0 → t'.shadow = t.shadow → SameConfiguration t t' →
    exec (.ptgl p) t' = .next u → Responded t' u .ok 0 →
      u.shadow = s.shadow ∧
      (t.events.length - s.events.length) + (u.events.length - t'.events.length) = 2 * (24 * s.chainLen + 4)

/-- R162: `WRBIT 1, b` then `WRBIT 0, b`, both completed, restore every bit other than `b`; a completed `WRBIT st, b` leaves
`st & 1` in bit `b` and every other bit as it was; a completed `WRBYTE y, k` leaves `y & 0xFF` in byte `k` and every other bit
as it was. -/
def Obligations.NoCrossBitCorruption : Prop :=
  ∀ s t : State, s.shadow < 2 ^ (8 * s.chainLen) → Responded s t .ok 0 →
    (∀ (b : Int) (u : State), exec (.wrbit 1 b) s = .next t → exec (.wrbit 0 b) t = .next u → Responded t u .ok 0 →
      ∀ j : Nat, (j : Int) ≠ b → u.shadow.testBit j = s.shadow.testBit j) ∧
    (∀ (st : Nat) (b : Int), exec (.wrbit st b) s = .next t →
      ∀ j : Nat, t.shadow.testBit j = if (j : Int) = b then decide (st % 2 = 1) else s.shadow.testBit j) ∧
    (∀ (y : Nat) (k : Int), exec (.wrbyte y k) s = .next t →
      ∀ j : Nat, t.shadow.testBit j =
        if 8 * k ≤ j ∧ (j : Int) < 8 * k + 8 then y.testBit (j - 8 * k.toNat) else s.shadow.testBit j)

/-! ### The chain (spec/20_memory.md part 3) -/

/-- R64 to R67 (the edges and the direction of shift are the spec's general-knowledge passages, notes/assumptions/10.md): the
chain's reaction to one event answered `ok`, and the output pins. A clock not known to be at 1 rises when driven to 1 (at 0:
R65, R66; of unspecified level: notes/assumptions/9.md); a rising `SCK` while `CLR` is 0 leaves every stage 0
(notes/assumptions/19.md). -/
def Obligations.ChainReactions : Prop :=
  ∀ s : State,
    ((s.eventOk ⟨.clr, false⟩).stage = List.replicate s.stage.length (some false) ∧
      (s.eventOk ⟨.clr, false⟩).latch = s.latch) ∧
    ((s.specified.sck = true → s.lines.sck = false) →
      (s.eventOk ⟨.sck, true⟩).stage.length = s.stage.length ∧
      (s.lines.clr = true → ∀ n, n < s.stage.length →
        (s.eventOk ⟨.sck, true⟩).stage[n]? = if n = 0 then some (some s.lines.ser) else s.stage[n - 1]?) ∧
      (s.lines.clr = false → (s.eventOk ⟨.sck, true⟩).stage = List.replicate s.stage.length (some false)) ∧
      (s.eventOk ⟨.sck, true⟩).latch = s.latch) ∧
    ((s.specified.lck = true → s.lines.lck = false) →
      (s.eventOk ⟨.lck, true⟩).latch = s.stage ∧ (s.eventOk ⟨.lck, true⟩).stage = s.stage) ∧
    (s.lines.oe = true → ∀ p ∈ s.out, p = .highZ) ∧
    (s.lines.oe = false → ∀ (n : Nat) (v : Bool), s.latch[n]? = some (some v) → s.out[n]? = some (.level v))

/-- R69 (on the edges of notes/assumptions/10.md and 9.md): the events that change neither a stage nor a latch: any `SER` event,
any falling or same-level `SCK` or `LCK` event, `CLR=1`, and any `OE` event (R67). -/
def Obligations.EventsWithoutChainEffect : Prop :=
  ∀ (s : State) (e : LineEvent),
    (e.line = .ser ∨ e.line = .oe ∨ e = ⟨.clr, true⟩ ∨
      (e.line = .sck ∧ (e.level = false ∨ (s.specified.sck = true ∧ s.lines.sck = true))) ∨
      (e.line = .lck ∧ (e.level = false ∨ (s.specified.lck = true ∧ s.lines.lck = true)))) →
        (s.eventOk e).stage = s.stage ∧ (s.eventOk e).latch = s.latch

/-- R70 (a general-knowledge passage of the spec, notes/assumptions/10.md), and R254, after a fault too (after a failed drive
of a clock on the edge of notes/assumptions/9.md): after a write that
completes, the stages and the latches hold `t(W - 1 - s)` for `s < W` and 0 at and above `W`, for a chain of any length. The
premise, that neither clock is known to be at 1 when the write begins, follows from the invariant `ClocksInv`
(PulsesEndBeforeResponse). -/
def Obligations.ChainAfterShiftOut : Prop :=
  ∀ (i : Instr) (s t : State), isWrite i = true → ClocksReady s →
    exec i s = .next t → Responded s t .ok 0 →
      t.stage = shiftedOut t.bitOrder (8 * t.chainLen) t.shadow s.stage.length ∧
      t.latch = shiftedOut t.bitOrder (8 * t.chainLen) t.shadow s.stage.length

/-- R70's table (notes/assumptions/10.md), in terms of shadow bits: in NormalLSBFirst stage `s` shows shadow bit `W - 1
- s`; in ReverseMSBFirst it shows bit `s + 1`, and stage `W - 1` a constant 0. -/
def Obligations.ShadowBitOnEachStage : Prop :=
  ∀ (w v n : Nat), n < w →
    shiftedOutCell .normalLSBFirst w v n = some (v.testBit (w - 1 - n)) ∧
    shiftedOutCell .reverseMSBFirst w v n = some (if n = w - 1 then false else v.testBit (n + 1))

/-- R71, R60 (on the edges of notes/assumptions/10.md): while a shift-out begun with `LCK` not known to be at 1 runs, the
latches and the outputs are what they were before it until the `LCK=1` event, number `2 + 3W`; from that event on the latches
hold the stages as they then were, they do not change after it, and the outputs show them. Where the level of `LCK` was
unspecified when the shift-out began, what holds from the `LCK=1` event on rests on that event being a rising edge, which is
the model's inference (DEDUCED, notes/assumptions/9.md). -/
def Obligations.NoPartialPattern : Prop :=
  ∀ (s : State) (o : BitOrder) (n v j : Nat), (s.specified.lck = true → s.lines.lck = false) → AllOk s j →
    j ≤ 4 + 3 * (8 * n) →
    ∃ t, emit ((shiftOutEvents o n v).take j) s = (t, .ok) ∧
      (j ≤ 2 + 3 * (8 * n) → t.latch = s.latch ∧ t.out = s.out) ∧
      (2 + 3 * (8 * n) < j → t.latch = t.stage ∧ t.out = t.stage.map (pinOf s.lines.oe) ∧
        ∃ u, emit ((shiftOutEvents o n v).take (2 + 3 * (8 * n))) s = (u, .ok) ∧ t.latch = u.stage)

/-- R72 (on R70, notes/assumptions/10.md; after a failed drive of a clock on the edge of notes/assumptions/9.md): a write
that completes, begun with the outputs enabled and neither clock known to be at 1 (the invariant `ClocksInv`), leaves
`InSync`. -/
def Obligations.WriteLeavesInSync : Prop :=
  ∀ (i : Instr) (s t : State), isWrite i = true → s.lines.oe = false → ClocksReady s →
    exec i s = .next t → Responded s t .ok 0 → t.InSync

/-! ### The two levels of description -/

/-- R7, R33 (the spec's decisions D1 and D17): the sequencer level is a refinement of the command level: from an idle
controller with a beat to take, the machine run at sequencer level reaches, in some number of steps, the very state one
step at command level gives. -/
def Obligations.SequencerRefinesCommand : Prop :=
  ∀ (s t : State) (b : Beat) (rest : List HostMove),
    s.seq = .idle → s.params.level = .command → s.host = .beat b :: rest → step s = .next t →
      ∃ n, core.run n { s with params := { s.params with level := .sequencer } } =
        .next { t with params := { t.params with level := .sequencer } }
end

