-- ==== Sys2Proof/Laws/Bits.lean ====
section
/-! SUPPORT. The bits of what the bit operations give. -/

namespace Sys2Proof.Machine

/-- Masking is reduction modulo a power of two. -/
theorem and_mask (v n : Nat) : v &&& mask n = v % 2 ^ n := by
  simp [mask, Nat.and_two_pow_sub_one_eq_mod]

@[simp] theorem testBit_mask (n j : Nat) : (mask n).testBit j = decide (j < n) := by
  simp [mask, Nat.testBit_two_pow_sub_one]

@[simp] theorem testBit_notBits (w x j : Nat) : (notBits w x).testBit j = (decide (j < w) && !x.testBit j) := by
  simp only [notBits, Nat.testBit_xor, Nat.testBit_and, testBit_mask]
  cases decide (j < w) <;> simp

/-- Every bit of `MemRead`. -/
theorem testBit_memRead (v a n j : Nat) : (memRead v a n).testBit j = (decide (j < n) && v.testBit (a + j)) := by
  simp [memRead, Nat.testBit_shiftRight, Bool.and_comm]

/-- Every bit of `MemWrite`: the field's bits are the value's, the others are the old ones, cut to `w` bits. -/
theorem testBit_memWrite (w v a n x j : Nat) :
    (memWrite w v a n x).testBit j =
      (decide (j < w) && if a ≤ j ∧ j < a + n then x.testBit (j - a) else v.testBit j) := by
  simp only [memWrite, Nat.testBit_and, Nat.testBit_or, testBit_mask, testBit_notBits, Nat.testBit_shiftLeft]
  by_cases hw : j < w <;> by_cases ha : a ≤ j <;> by_cases hn : j < a + n
  all_goals simp [hw, ha, hn]
  all_goals first
    | (have : j - a < n := by omega
       simp [this])
    | (have : ¬ j - a < n := by omega
       simp [this])

/-- `MemWrite` keeps the shadow below `2^w` (10_state.md R21). -/
theorem memWrite_lt (w v a n x : Nat) : memWrite w v a n x < 2 ^ w := by
  rw [memWrite, and_mask]
  exact Nat.mod_lt _ (Nat.two_pow_pos w)

theorem memRead_lt (v a n : Nat) : memRead v a n < 2 ^ n := by
  rw [memRead, and_mask]
  exact Nat.mod_lt _ (Nat.two_pow_pos n)

theorem memRead_eq (v a n : Nat) : memRead v a n = v / 2 ^ a % 2 ^ n := by
  rw [memRead, and_mask, Nat.shiftRight_eq_div_pow]

/-- A one-bit read is the bit. -/
theorem memRead_one (v a : Nat) : memRead v a 1 = (v.testBit a).toNat := by
  rw [memRead_eq, Nat.testBit_eq_decide_div_mod_eq]
  rcases Nat.mod_two_eq_zero_or_one (v / 2 ^ a) with h | h <;> simp [h]

theorem registerOperand_eq (w cd : Nat) : registerOperand w cd = cd % 2 ^ w := and_mask cd w

theorem stateOperand_eq (cd : Nat) : stateOperand cd = cd % 2 := by simp [stateOperand, and_mask]

theorem byteOperand_eq (cd : Nat) : byteOperand cd = cd % 256 := by simp [byteOperand, and_mask]

/-- Within the width `bitOf` is the bit. -/
theorem bitOf_of_lt {w v b : Nat} (h : b < w) : bitOf w v b = v.testBit b := by simp [bitOf, h]

/-- At and above the width `bitOf` is 0 (42_write.md R154). -/
theorem bitOf_of_ge {w v b : Nat} (h : w ≤ b) : bitOf w v b = false := by simp [bitOf, Nat.not_lt.2 h]

end Sys2Proof.Machine
end

