-- ==== Sys2Proof/Laws/Encoding.lean ====
section
/-! SUPPORT. The fields of an assembled command word, the word assembled from its fields, and an index's way through its
field. -/

namespace Sys2Proof

/-- Every bit of an assembled word. -/
theorem getLsbD_encodeWord (op : BitVec 4) (o : BitVec 2) (l : BitVec 16) (j : Nat) :
    (encodeWord op o l).getLsbD j =
      if j < 16 then l.getLsbD j else if j < 18 then o.getLsbD (j - 16)
      else if j < 28 then false else op.getLsbD (j - 28) := by
  show (op ++ (0#10) ++ o ++ l : BitVec (4 + 10 + 2 + 16)).getLsbD j = _
  simp only [BitVec.getLsbD_append, Nat.sub_sub, BitVec.getLsbD_zero]
  split <;> [rfl; skip]
  by_cases h : j < 18
  · simp [h, show j - 16 < 2 by omega]
  · simp [h, show ¬ j - 16 < 2 by omega]
    by_cases h' : j < 28
    · simp [h', show j - 18 < 10 by omega]
    · simp [h', show ¬ j - 18 < 10 by omega]

@[simp] theorem opField_encodeWord (op : BitVec 4) (o : BitVec 2) (l : BitVec 16) :
    opField (encodeWord op o l) = op := by
  apply BitVec.eq_of_getLsbD_eq
  intro i hi
  simp [opField, getLsbD_encodeWord, hi, show ¬ 28 + i < 16 by omega, show ¬ 28 + i < 18 by omega]

@[simp] theorem zField_encodeWord (op : BitVec 4) (o : BitVec 2) (l : BitVec 16) :
    zField (encodeWord op o l) = 0 := by
  apply BitVec.eq_of_getLsbD_eq
  intro i hi
  simp [zField, getLsbD_encodeWord, show ¬ 18 + i < 16 by omega, show ¬ 18 + i < 18 by omega,
    show 18 + i < 28 by omega]

@[simp] theorem orderField_encodeWord (op : BitVec 4) (o : BitVec 2) (l : BitVec 16) :
    orderField (encodeWord op o l) = o := by
  apply BitVec.eq_of_getLsbD_eq
  intro i hi
  simp [orderField, getLsbD_encodeWord, hi, show ¬ 16 + i < 16 by omega, show 16 + i < 18 by omega]

@[simp] theorem lowField_encodeWord (op : BitVec 4) (o : BitVec 2) (l : BitVec 16) :
    lowField (encodeWord op o l) = l := by
  apply BitVec.eq_of_getLsbD_eq
  intro i hi
  simp [lowField, getLsbD_encodeWord, hi]

/-- A word whose `Z` is zero is the one assembled from its other fields. -/
theorem encodeWord_fields {cw : CmdWord} (hz : zField cw = 0) :
    encodeWord (opField cw) (orderField cw) (lowField cw) = cw := by
  apply BitVec.eq_of_getLsbD_eq
  intro i hi
  rw [getLsbD_encodeWord]
  have hzi : ∀ k, k < 10 → cw.getLsbD (18 + k) = false := by
    intro k hk
    have := congrArg (fun v => v.getLsbD k) hz
    simpa [zField, hk] using this
  split
  · simp [lowField, *]
  · split
    · have : i - 16 < 2 := by omega
      simp [orderField, this, show 16 + (i - 16) = i by omega]
    · split
      · have := hzi (i - 18) (by omega)
        rw [show 18 + (i - 18) = i by omega] at this
        exact this.symm
      · have : i - 28 < 4 := by omega
        simp [opField, this, show 28 + (i - 28) = i by omega]

/-- An index in the range of the field survives it (30_encoding.md R92). -/
theorem int16_field16 {k : Int} (h : fitsInt16 k = true) : int16 (field16 k) = k := by
  simp only [fitsInt16, Bool.and_eq_true, decide_eq_true_eq] at h
  simp only [int16, field16, BitVec.toInt_ofInt]
  rw [Int.bmod_def]
  omega

/-- The field of the integer a field spells is the field. -/
@[simp] theorem field16_int16 (f : BitVec 16) : field16 (int16 f) = f := by
  simp [field16, int16]

/-- What a field spells is in the range. -/
theorem fitsInt16_int16 (f : BitVec 16) : fitsInt16 (int16 f) = true := by
  have h1 : 2 * f.toInt < 2 ^ 16 := BitVec.two_mul_toInt_lt
  have h2 : -2 ^ 16 ≤ 2 * f.toInt := BitVec.le_two_mul_toInt
  rw [fitsInt16, Bool.and_eq_true, decide_eq_true_iff, decide_eq_true_iff]
  show -32768 ≤ f.toInt ∧ f.toInt ≤ 32767
  omega

end Sys2Proof
end

