-- ==== Sys2Proof/Laws/State.lean ====
section
/-! SUPPORT. What each update of the state leaves in each field: one lemma per field per update, so that no later proof
unfolds a record update. -/

namespace Sys2Proof.Machine

variable (s : State)

/-! ### `State.setShadow` -/

@[simp] theorem State.setShadow_params (v : Nat) : (s.setShadow v).params = s.params := rfl
@[simp] theorem State.setShadow_cfg (v : Nat) : (s.setShadow v).cfg = s.cfg := rfl
@[simp] theorem State.setShadow_chainLen (v : Nat) : (s.setShadow v).chainLen = s.chainLen := rfl
@[simp] theorem State.setShadow_bitOrder (v : Nat) : (s.setShadow v).bitOrder = s.bitOrder := rfl
@[simp] theorem State.setShadow_shadow (v : Nat) : (s.setShadow v).shadow = v := rfl
@[simp] theorem State.setShadow_lines (v : Nat) : (s.setShadow v).lines = s.lines := rfl
@[simp] theorem State.setShadow_specified (v : Nat) : (s.setShadow v).specified = s.specified := rfl
@[simp] theorem State.setShadow_seq (v : Nat) : (s.setShadow v).seq = s.seq := rfl
@[simp] theorem State.setShadow_stage (v : Nat) : (s.setShadow v).stage = s.stage := rfl
@[simp] theorem State.setShadow_latch (v : Nat) : (s.setShadow v).latch = s.latch := rfl
@[simp] theorem State.setShadow_host (v : Nat) : (s.setShadow v).host = s.host := rfl
@[simp] theorem State.setShadow_responses (v : Nat) : (s.setShadow v).responses = s.responses := rfl
@[simp] theorem State.setShadow_events (v : Nat) : (s.setShadow v).events = s.events := rfl
@[simp] theorem State.setShadow_answers (v : Nat) : (s.setShadow v).answers = s.answers := rfl
@[simp] theorem State.setShadow_fresh (v : Nat) : (s.setShadow v).fresh = s.fresh := rfl

/-! ### `State.setSeq` -/

@[simp] theorem State.setSeq_params (q : Sequencer) : (s.setSeq q).params = s.params := rfl
@[simp] theorem State.setSeq_cfg (q : Sequencer) : (s.setSeq q).cfg = s.cfg := rfl
@[simp] theorem State.setSeq_chainLen (q : Sequencer) : (s.setSeq q).chainLen = s.chainLen := rfl
@[simp] theorem State.setSeq_bitOrder (q : Sequencer) : (s.setSeq q).bitOrder = s.bitOrder := rfl
@[simp] theorem State.setSeq_shadow (q : Sequencer) : (s.setSeq q).shadow = s.shadow := rfl
@[simp] theorem State.setSeq_lines (q : Sequencer) : (s.setSeq q).lines = s.lines := rfl
@[simp] theorem State.setSeq_specified (q : Sequencer) : (s.setSeq q).specified = s.specified := rfl
@[simp] theorem State.setSeq_seq (q : Sequencer) : (s.setSeq q).seq = q := rfl
@[simp] theorem State.setSeq_stage (q : Sequencer) : (s.setSeq q).stage = s.stage := rfl
@[simp] theorem State.setSeq_latch (q : Sequencer) : (s.setSeq q).latch = s.latch := rfl
@[simp] theorem State.setSeq_host (q : Sequencer) : (s.setSeq q).host = s.host := rfl
@[simp] theorem State.setSeq_responses (q : Sequencer) : (s.setSeq q).responses = s.responses := rfl
@[simp] theorem State.setSeq_events (q : Sequencer) : (s.setSeq q).events = s.events := rfl
@[simp] theorem State.setSeq_answers (q : Sequencer) : (s.setSeq q).answers = s.answers := rfl
@[simp] theorem State.setSeq_fresh (q : Sequencer) : (s.setSeq q).fresh = s.fresh := rfl

/-! ### `State.setHost` -/

@[simp] theorem State.setHost_params (h : List HostMove) : (s.setHost h).params = s.params := rfl
@[simp] theorem State.setHost_cfg (h : List HostMove) : (s.setHost h).cfg = s.cfg := rfl
@[simp] theorem State.setHost_chainLen (h : List HostMove) : (s.setHost h).chainLen = s.chainLen := rfl
@[simp] theorem State.setHost_bitOrder (h : List HostMove) : (s.setHost h).bitOrder = s.bitOrder := rfl
@[simp] theorem State.setHost_shadow (h : List HostMove) : (s.setHost h).shadow = s.shadow := rfl
@[simp] theorem State.setHost_lines (h : List HostMove) : (s.setHost h).lines = s.lines := rfl
@[simp] theorem State.setHost_specified (h : List HostMove) : (s.setHost h).specified = s.specified := rfl
@[simp] theorem State.setHost_seq (h : List HostMove) : (s.setHost h).seq = s.seq := rfl
@[simp] theorem State.setHost_stage (h : List HostMove) : (s.setHost h).stage = s.stage := rfl
@[simp] theorem State.setHost_latch (h : List HostMove) : (s.setHost h).latch = s.latch := rfl
@[simp] theorem State.setHost_host (h : List HostMove) : (s.setHost h).host = h := rfl
@[simp] theorem State.setHost_responses (h : List HostMove) : (s.setHost h).responses = s.responses := rfl
@[simp] theorem State.setHost_events (h : List HostMove) : (s.setHost h).events = s.events := rfl
@[simp] theorem State.setHost_answers (h : List HostMove) : (s.setHost h).answers = s.answers := rfl
@[simp] theorem State.setHost_fresh (h : List HostMove) : (s.setHost h).fresh = s.fresh := rfl

/-! ### `State.construct` -/

@[simp] theorem State.construct_params (n : Nat) (o : BitOrder) : (s.construct n o).params = s.params := rfl
@[simp] theorem State.construct_cfg (n : Nat) (o : BitOrder) : (s.construct n o).cfg = .configured := rfl
@[simp] theorem State.construct_chainLen (n : Nat) (o : BitOrder) : (s.construct n o).chainLen = n := rfl
@[simp] theorem State.construct_bitOrder (n : Nat) (o : BitOrder) : (s.construct n o).bitOrder = o := rfl
@[simp] theorem State.construct_shadow (n : Nat) (o : BitOrder) : (s.construct n o).shadow = 0 := rfl
@[simp] theorem State.construct_lines (n : Nat) (o : BitOrder) : (s.construct n o).lines = s.lines := rfl
@[simp] theorem State.construct_specified (n : Nat) (o : BitOrder) : (s.construct n o).specified = s.specified := rfl
@[simp] theorem State.construct_seq (n : Nat) (o : BitOrder) : (s.construct n o).seq = s.seq := rfl
@[simp] theorem State.construct_stage (n : Nat) (o : BitOrder) : (s.construct n o).stage = s.stage := rfl
@[simp] theorem State.construct_latch (n : Nat) (o : BitOrder) : (s.construct n o).latch = s.latch := rfl
@[simp] theorem State.construct_host (n : Nat) (o : BitOrder) : (s.construct n o).host = s.host := rfl
@[simp] theorem State.construct_responses (n : Nat) (o : BitOrder) : (s.construct n o).responses = s.responses := rfl
@[simp] theorem State.construct_events (n : Nat) (o : BitOrder) : (s.construct n o).events = s.events := rfl
@[simp] theorem State.construct_answers (n : Nat) (o : BitOrder) : (s.construct n o).answers = s.answers := rfl
@[simp] theorem State.construct_fresh (n : Nat) (o : BitOrder) : (s.construct n o).fresh = s.fresh := rfl

/-! ### `State.merge1` -/

@[simp] theorem State.merge1_params (b x : Nat) : (s.merge1 b x).params = s.params := rfl
@[simp] theorem State.merge1_cfg (b x : Nat) : (s.merge1 b x).cfg = s.cfg := rfl
@[simp] theorem State.merge1_chainLen (b x : Nat) : (s.merge1 b x).chainLen = s.chainLen := rfl
@[simp] theorem State.merge1_bitOrder (b x : Nat) : (s.merge1 b x).bitOrder = s.bitOrder := rfl
@[simp] theorem State.merge1_shadow (b x : Nat) : (s.merge1 b x).shadow = memWrite s.width s.shadow b 1 x := rfl
@[simp] theorem State.merge1_lines (b x : Nat) : (s.merge1 b x).lines = s.lines := rfl
@[simp] theorem State.merge1_specified (b x : Nat) : (s.merge1 b x).specified = s.specified := rfl
@[simp] theorem State.merge1_seq (b x : Nat) : (s.merge1 b x).seq = s.seq := rfl
@[simp] theorem State.merge1_stage (b x : Nat) : (s.merge1 b x).stage = s.stage := rfl
@[simp] theorem State.merge1_latch (b x : Nat) : (s.merge1 b x).latch = s.latch := rfl
@[simp] theorem State.merge1_host (b x : Nat) : (s.merge1 b x).host = s.host := rfl
@[simp] theorem State.merge1_responses (b x : Nat) : (s.merge1 b x).responses = s.responses := rfl
@[simp] theorem State.merge1_events (b x : Nat) : (s.merge1 b x).events = s.events := rfl
@[simp] theorem State.merge1_answers (b x : Nat) : (s.merge1 b x).answers = s.answers := rfl
@[simp] theorem State.merge1_fresh (b x : Nat) : (s.merge1 b x).fresh = s.fresh := rfl

/-! ### `State.merge8` -/

@[simp] theorem State.merge8_params (k y : Nat) : (s.merge8 k y).params = s.params := rfl
@[simp] theorem State.merge8_cfg (k y : Nat) : (s.merge8 k y).cfg = s.cfg := rfl
@[simp] theorem State.merge8_chainLen (k y : Nat) : (s.merge8 k y).chainLen = s.chainLen := rfl
@[simp] theorem State.merge8_bitOrder (k y : Nat) : (s.merge8 k y).bitOrder = s.bitOrder := rfl
@[simp] theorem State.merge8_shadow (k y : Nat) : (s.merge8 k y).shadow = memWrite s.width s.shadow (8 * k) 8 y := rfl
@[simp] theorem State.merge8_lines (k y : Nat) : (s.merge8 k y).lines = s.lines := rfl
@[simp] theorem State.merge8_specified (k y : Nat) : (s.merge8 k y).specified = s.specified := rfl
@[simp] theorem State.merge8_seq (k y : Nat) : (s.merge8 k y).seq = s.seq := rfl
@[simp] theorem State.merge8_stage (k y : Nat) : (s.merge8 k y).stage = s.stage := rfl
@[simp] theorem State.merge8_latch (k y : Nat) : (s.merge8 k y).latch = s.latch := rfl
@[simp] theorem State.merge8_host (k y : Nat) : (s.merge8 k y).host = s.host := rfl
@[simp] theorem State.merge8_responses (k y : Nat) : (s.merge8 k y).responses = s.responses := rfl
@[simp] theorem State.merge8_events (k y : Nat) : (s.merge8 k y).events = s.events := rfl
@[simp] theorem State.merge8_answers (k y : Nat) : (s.merge8 k y).answers = s.answers := rfl
@[simp] theorem State.merge8_fresh (k y : Nat) : (s.merge8 k y).fresh = s.fresh := rfl

/-! ### `State.respond` -/

@[simp] theorem State.respond_params (c : RespCode) (d : Nat) : (s.respond c d).params = s.params := rfl
@[simp] theorem State.respond_cfg (c : RespCode) (d : Nat) : (s.respond c d).cfg = s.cfg := rfl
@[simp] theorem State.respond_chainLen (c : RespCode) (d : Nat) : (s.respond c d).chainLen = s.chainLen := rfl
@[simp] theorem State.respond_bitOrder (c : RespCode) (d : Nat) : (s.respond c d).bitOrder = s.bitOrder := rfl
@[simp] theorem State.respond_shadow (c : RespCode) (d : Nat) : (s.respond c d).shadow = s.shadow := rfl
@[simp] theorem State.respond_lines (c : RespCode) (d : Nat) : (s.respond c d).lines = s.lines := rfl
@[simp] theorem State.respond_specified (c : RespCode) (d : Nat) : (s.respond c d).specified = s.specified := rfl
@[simp] theorem State.respond_seq (c : RespCode) (d : Nat) : (s.respond c d).seq = s.seq := rfl
@[simp] theorem State.respond_stage (c : RespCode) (d : Nat) : (s.respond c d).stage = s.stage := rfl
@[simp] theorem State.respond_latch (c : RespCode) (d : Nat) : (s.respond c d).latch = s.latch := rfl
@[simp] theorem State.respond_host (c : RespCode) (d : Nat) : (s.respond c d).host = s.host := rfl
@[simp] theorem State.respond_responses (c : RespCode) (d : Nat) : (s.respond c d).responses = s.responses ++ [⟨c, d⟩] := rfl
@[simp] theorem State.respond_events (c : RespCode) (d : Nat) : (s.respond c d).events = s.events := rfl
@[simp] theorem State.respond_answers (c : RespCode) (d : Nat) : (s.respond c d).answers = s.answers := rfl
@[simp] theorem State.respond_fresh (c : RespCode) (d : Nat) : (s.respond c d).fresh = s.fresh := rfl

/-! ### `State.raise` -/

@[simp] theorem State.raise_params (e : CmdError) : (s.raise e).params = s.params := rfl
@[simp] theorem State.raise_cfg (e : CmdError) : (s.raise e).cfg = s.cfg := rfl
@[simp] theorem State.raise_chainLen (e : CmdError) : (s.raise e).chainLen = s.chainLen := rfl
@[simp] theorem State.raise_bitOrder (e : CmdError) : (s.raise e).bitOrder = s.bitOrder := rfl
@[simp] theorem State.raise_shadow (e : CmdError) : (s.raise e).shadow = s.shadow := rfl
@[simp] theorem State.raise_lines (e : CmdError) : (s.raise e).lines = s.lines := rfl
@[simp] theorem State.raise_specified (e : CmdError) : (s.raise e).specified = s.specified := rfl
@[simp] theorem State.raise_seq (e : CmdError) : (s.raise e).seq = s.seq := rfl
@[simp] theorem State.raise_stage (e : CmdError) : (s.raise e).stage = s.stage := rfl
@[simp] theorem State.raise_latch (e : CmdError) : (s.raise e).latch = s.latch := rfl
@[simp] theorem State.raise_host (e : CmdError) : (s.raise e).host = s.host := rfl
@[simp] theorem State.raise_responses (e : CmdError) : (s.raise e).responses = s.responses ++ [⟨e.code, 0⟩] := rfl
@[simp] theorem State.raise_events (e : CmdError) : (s.raise e).events = s.events := rfl
@[simp] theorem State.raise_answers (e : CmdError) : (s.raise e).answers = s.answers := rfl
@[simp] theorem State.raise_fresh (e : CmdError) : (s.raise e).fresh = s.fresh := rfl

/-! ### `State.eventOk` -/

@[simp] theorem State.eventOk_params (e : LineEvent) : (s.eventOk e).params = s.params := rfl
@[simp] theorem State.eventOk_cfg (e : LineEvent) : (s.eventOk e).cfg = s.cfg := rfl
@[simp] theorem State.eventOk_chainLen (e : LineEvent) : (s.eventOk e).chainLen = s.chainLen := rfl
@[simp] theorem State.eventOk_bitOrder (e : LineEvent) : (s.eventOk e).bitOrder = s.bitOrder := rfl
@[simp] theorem State.eventOk_shadow (e : LineEvent) : (s.eventOk e).shadow = s.shadow := rfl
@[simp] theorem State.eventOk_lines (e : LineEvent) : (s.eventOk e).lines = s.lines.set e.line e.level := rfl
@[simp] theorem State.eventOk_specified (e : LineEvent) : (s.eventOk e).specified = s.specified.set e.line true := rfl
@[simp] theorem State.eventOk_seq (e : LineEvent) : (s.eventOk e).seq = s.seq := rfl
@[simp] theorem State.eventOk_stage (e : LineEvent) : (s.eventOk e).stage = stageAfter s.lines s.specified e s.stage := rfl
@[simp] theorem State.eventOk_latch (e : LineEvent) : (s.eventOk e).latch = latchAfter s.lines s.specified e s.stage s.latch := rfl
@[simp] theorem State.eventOk_host (e : LineEvent) : (s.eventOk e).host = s.host := rfl
@[simp] theorem State.eventOk_responses (e : LineEvent) : (s.eventOk e).responses = s.responses := rfl
@[simp] theorem State.eventOk_events (e : LineEvent) : (s.eventOk e).events = s.events ++ [e] := rfl
@[simp] theorem State.eventOk_answers (e : LineEvent) : (s.eventOk e).answers = s.answers.tail := rfl
@[simp] theorem State.eventOk_fresh (e : LineEvent) : (s.eventOk e).fresh = s.fresh + 1 := rfl

/-! ### `State.eventFail` -/

@[simp] theorem State.eventFail_params (e : LineEvent) : (s.eventFail e).params = s.params := rfl
@[simp] theorem State.eventFail_cfg (e : LineEvent) : (s.eventFail e).cfg = s.cfg := rfl
@[simp] theorem State.eventFail_chainLen (e : LineEvent) : (s.eventFail e).chainLen = s.chainLen := rfl
@[simp] theorem State.eventFail_bitOrder (e : LineEvent) : (s.eventFail e).bitOrder = s.bitOrder := rfl
@[simp] theorem State.eventFail_shadow (e : LineEvent) : (s.eventFail e).shadow = s.shadow := rfl
@[simp] theorem State.eventFail_lines (e : LineEvent) : (s.eventFail e).lines = s.lines.set e.line (Config.freeLevel s.fresh) := rfl
@[simp] theorem State.eventFail_specified (e : LineEvent) : (s.eventFail e).specified = s.specified.set e.line false := rfl
@[simp] theorem State.eventFail_seq (e : LineEvent) : (s.eventFail e).seq = s.seq := rfl
@[simp] theorem State.eventFail_stage (e : LineEvent) : (s.eventFail e).stage = undefinedCells s.stage := rfl
@[simp] theorem State.eventFail_latch (e : LineEvent) : (s.eventFail e).latch = undefinedCells s.latch := rfl
@[simp] theorem State.eventFail_host (e : LineEvent) : (s.eventFail e).host = s.host := rfl
@[simp] theorem State.eventFail_responses (e : LineEvent) : (s.eventFail e).responses = s.responses := rfl
@[simp] theorem State.eventFail_events (e : LineEvent) : (s.eventFail e).events = s.events ++ [e] := rfl
@[simp] theorem State.eventFail_answers (e : LineEvent) : (s.eventFail e).answers = s.answers.tail := rfl
@[simp] theorem State.eventFail_fresh (e : LineEvent) : (s.eventFail e).fresh = s.fresh + 1 := rfl

/-! ### `State.hardwareReset` -/

@[simp] theorem State.hardwareReset_params : (s.hardwareReset).params = s.params := rfl
@[simp] theorem State.hardwareReset_cfg : (s.hardwareReset).cfg = .unconfigured := rfl
@[simp] theorem State.hardwareReset_chainLen : (s.hardwareReset).chainLen = 0 := rfl
@[simp] theorem State.hardwareReset_bitOrder : (s.hardwareReset).bitOrder = .normalLSBFirst := rfl
@[simp] theorem State.hardwareReset_shadow : (s.hardwareReset).shadow = 0 := rfl
@[simp] theorem State.hardwareReset_lines : (s.hardwareReset).lines = Lines.unspecified s.fresh := rfl
@[simp] theorem State.hardwareReset_specified : (s.hardwareReset).specified = PerLine.all false := rfl
@[simp] theorem State.hardwareReset_seq : (s.hardwareReset).seq = .idle := rfl
@[simp] theorem State.hardwareReset_stage : (s.hardwareReset).stage = undefinedCells s.stage := rfl
@[simp] theorem State.hardwareReset_latch : (s.hardwareReset).latch = undefinedCells s.latch := rfl
@[simp] theorem State.hardwareReset_host : (s.hardwareReset).host = s.host := rfl
@[simp] theorem State.hardwareReset_responses : (s.hardwareReset).responses = s.responses := rfl
@[simp] theorem State.hardwareReset_events : (s.hardwareReset).events = s.events := rfl
@[simp] theorem State.hardwareReset_answers : (s.hardwareReset).answers = s.answers := rfl
@[simp] theorem State.hardwareReset_fresh : (s.hardwareReset).fresh = s.fresh + 5 := rfl

/-! ### Derived views -/

@[simp] theorem State.setShadow_width (v : Nat) : (s.setShadow v).width = s.width := rfl
@[simp] theorem State.setSeq_width (q : Sequencer) : (s.setSeq q).width = s.width := rfl
@[simp] theorem State.setHost_width (h : List HostMove) : (s.setHost h).width = s.width := rfl
@[simp] theorem State.merge1_width (b x : Nat) : (s.merge1 b x).width = s.width := rfl
@[simp] theorem State.merge8_width (k y : Nat) : (s.merge8 k y).width = s.width := rfl
@[simp] theorem State.eventOk_width (e : LineEvent) : (s.eventOk e).width = s.width := rfl
@[simp] theorem State.eventFail_width (e : LineEvent) : (s.eventFail e).width = s.width := rfl
@[simp] theorem State.construct_width (n : Nat) (o : BitOrder) : (s.construct n o).width = 8 * n := rfl

@[simp] theorem State.setShadow_answerAt (v j : Nat) : (s.setShadow v).answerAt j = s.answerAt j := rfl
@[simp] theorem State.setSeq_answerAt (q : Sequencer) (j : Nat) : (s.setSeq q).answerAt j = s.answerAt j := rfl
@[simp] theorem State.setHost_answerAt (h : List HostMove) (j : Nat) : (s.setHost h).answerAt j = s.answerAt j := rfl
@[simp] theorem State.merge1_answerAt (b x j : Nat) : (s.merge1 b x).answerAt j = s.answerAt j := rfl
@[simp] theorem State.merge8_answerAt (k y j : Nat) : (s.merge8 k y).answerAt j = s.answerAt j := rfl
@[simp] theorem State.respond_answerAt (c : RespCode) (d j : Nat) : (s.respond c d).answerAt j = s.answerAt j := rfl

/-- An event uses up one answer. -/
@[simp] theorem State.eventOk_answerAt (e : LineEvent) (j : Nat) : (s.eventOk e).answerAt j = s.answerAt (j + 1) := by
  simp [State.answerAt, List.getElem?_tail, Nat.add_assoc, Nat.add_comm 1 j]

/-! ### The error codes -/

@[simp] theorem CmdError.code_ne_ok (e : CmdError) : e.code ≠ .ok := by cases e <;> simp [CmdError.code]

end Sys2Proof.Machine
end

