-- ==== Sys2Proof/Laws/Ops.lean ====
section
/-! SUPPORT. What emitting a list of events can do, said once: every event answered `ok`, or cut short at the first
`fail`. -/

namespace Sys2Proof.Machine

/-- The state after the events `es`, all answered `ok`. -/
def applied (es : List LineEvent) (s : State) : State :=
  es.foldl State.eventOk s

@[simp] theorem applied_nil (s : State) : applied [] s = s := rfl
@[simp] theorem applied_cons (e : LineEvent) (es : List LineEvent) (s : State) :
    applied (e :: es) s = applied es (s.eventOk e) := rfl

theorem applied_append (es fs : List LineEvent) (s : State) :
    applied (es ++ fs) s = applied fs (applied es s) := by
  simp [applied, List.foldl_append]

/-! ### What events leave unchanged, and what they add -/

@[simp] theorem applied_params (es : List LineEvent) (s : State) : (applied es s).params = s.params := by
  induction es generalizing s <;> simp [*]
@[simp] theorem applied_cfg (es : List LineEvent) (s : State) : (applied es s).cfg = s.cfg := by
  induction es generalizing s <;> simp [*]
@[simp] theorem applied_chainLen (es : List LineEvent) (s : State) : (applied es s).chainLen = s.chainLen := by
  induction es generalizing s <;> simp [*]
@[simp] theorem applied_bitOrder (es : List LineEvent) (s : State) : (applied es s).bitOrder = s.bitOrder := by
  induction es generalizing s <;> simp [*]
@[simp] theorem applied_shadow (es : List LineEvent) (s : State) : (applied es s).shadow = s.shadow := by
  induction es generalizing s <;> simp [*]
@[simp] theorem applied_seq (es : List LineEvent) (s : State) : (applied es s).seq = s.seq := by
  induction es generalizing s <;> simp [*]
@[simp] theorem applied_host (es : List LineEvent) (s : State) : (applied es s).host = s.host := by
  induction es generalizing s <;> simp [*]
@[simp] theorem applied_responses (es : List LineEvent) (s : State) : (applied es s).responses = s.responses := by
  induction es generalizing s <;> simp [*]
@[simp] theorem applied_width (es : List LineEvent) (s : State) : (applied es s).width = s.width := by
  simp [State.width]
@[simp] theorem applied_events (es : List LineEvent) (s : State) : (applied es s).events = s.events ++ es := by
  induction es generalizing s <;> simp [*]
@[simp] theorem applied_fresh (es : List LineEvent) (s : State) : (applied es s).fresh = s.fresh + es.length := by
  induction es generalizing s <;> simp [*]
  omega
@[simp] theorem applied_answers (es : List LineEvent) (s : State) :
    (applied es s).answers = s.answers.drop es.length := by
  induction es generalizing s <;> simp [*]
@[simp] theorem applied_lines (es : List LineEvent) (s : State) : (applied es s).lines = linesAfter s.lines es := by
  induction es generalizing s <;> simp [linesAfter, *]
@[simp] theorem applied_answerAt (es : List LineEvent) (s : State) (j : Nat) :
    (applied es s).answerAt j = s.answerAt (es.length + j) := by
  induction es generalizing s j with
  | nil => simp
  | cons e es ih => simp [ih, Nat.add_assoc, Nat.add_comm 1 j]

@[simp] theorem applied_specified (es : List LineEvent) (s : State) :
    (applied es s).specified = specifiedAfter s.specified es := by
  induction es generalizing s <;> simp [specifiedAfter, *]

theorem stageAfter_length (ln : Lines) (sp : PerLine Bool) (e : LineEvent) (st : List Cell) :
    (stageAfter ln sp e st).length = st.length := by
  obtain ⟨l, v⟩ := e
  cases l <;> cases v <;> simp [stageAfter, zeroCells, shiftIn]
  split <;> [(split <;> simp); rfl]

theorem latchAfter_length (ln : Lines) (sp : PerLine Bool) (e : LineEvent) {st la : List Cell} (h : st.length = la.length) :
    (latchAfter ln sp e st la).length = la.length := by
  obtain ⟨l, v⟩ := e
  cases l <;> cases v <;> simp [latchAfter]
  split <;> simp [h]

@[simp] theorem applied_stage_length (es : List LineEvent) (s : State) :
    (applied es s).stage.length = s.stage.length := by
  induction es generalizing s <;> simp [stageAfter_length, *]

theorem applied_latch_length (es : List LineEvent) (s : State) (h : s.stage.length = s.latch.length) :
    (applied es s).latch.length = s.latch.length := by
  induction es generalizing s with
  | nil => rfl
  | cons e es ih =>
    rw [applied_cons, ih _ (by simp [stageAfter_length, latchAfter_length, h])]
    simp [latchAfter_length, h]

/-! ### The answers over the next events -/

/-- The next `n` events are all answered `ok`, or there is a first one that is not. -/
theorem allOk_or_firstFail (s : State) (n : Nat) : AllOk s n ∨ ∃ j, FirstFail s n j := by
  induction n with
  | zero => exact .inl fun j hj => absurd hj (Nat.not_lt_zero j)
  | succ n ih =>
    rcases ih with h | ⟨j, hj, ho, hf⟩
    · cases ha : s.answerAt n with
      | ok =>
        refine .inl fun j hj => ?_
        rcases Nat.lt_succ_iff_lt_or_eq.1 hj with h' | rfl
        · exact h j h'
        · exact ha
      | fail => exact .inr ⟨n, Nat.lt_succ_self n, h, ha⟩
    · exact .inr ⟨j, Nat.lt_succ_of_lt hj, ho, hf⟩

theorem not_allOk_of_firstFail {s : State} {n j : Nat} (h : FirstFail s n j) : ¬ AllOk s n := by
  intro ha
  have := ha j h.1
  rw [h.2.2] at this
  cases this

/-- Where line faults are off every answer is `ok` (R206). -/
theorem allOk_of_noFaults {s : State} (h : s.params.lineFaults = false) (n : Nat) : AllOk s n := by
  intro j _
  simp [State.answerAt, h]

theorem AllOk.mono {s : State} {m n : Nat} (h : AllOk s n) (hm : m ≤ n) : AllOk s m :=
  fun j hj => h j (Nat.lt_of_lt_of_le hj hm)

/-! ### `emit` -/

/-- Every event answered `ok`. -/
theorem emit_of_allOk {es : List LineEvent} {s : State} (h : AllOk s es.length) : emit es s = (applied es s, .ok) := by
  induction es generalizing s with
  | nil => rfl
  | cons e es ih =>
    have h0 := h 0 (by simp)
    simp only [emit, h0, applied_cons]
    refine ih fun j hj => ?_
    rw [State.eventOk_answerAt]
    exact h (j + 1) (by simpa using hj)

/-- Cut short at event `j`. -/
theorem emit_of_firstFail {es : List LineEvent} {s : State} {j : Nat} (h : FirstFail s es.length j) :
    ∃ e, es[j]? = some e ∧ emit es s = ((applied (es.take j) s).eventFail e, .fail) := by
  induction es generalizing s j with
  | nil => exact absurd h.1 (Nat.not_lt_zero j)
  | cons e es ih =>
    obtain ⟨hj, ho, hf⟩ := h
    cases j with
    | zero => exact ⟨e, by simp, by simp [emit, hf]⟩
    | succ j =>
      have h0 := ho 0 (Nat.succ_pos j)
      obtain ⟨f, hf1, hf2⟩ := @ih (s.eventOk e) j
        ⟨by simpa using hj, fun i hi => by simpa using ho (i + 1) (by omega), by simpa using hf⟩
      exact ⟨f, by simpa using hf1, by simp [emit, h0, hf2]⟩

theorem driveThen_of_allOk {es : List LineEvent} {s : State} (after : State → State) (d : Nat)
    (h : AllOk s es.length) : driveThen es after d s = (after (applied es s)).respond .ok d := by
  simp [driveThen, emit_of_allOk h]

theorem driveThen_of_firstFail {es : List LineEvent} {s : State} {j : Nat} (after : State → State) (d : Nat)
    (h : FirstFail s es.length j) :
    ∃ e, es[j]? = some e ∧
      driveThen es after d s = ((applied (es.take j) s).eventFail e).raise .hardwareFault := by
  obtain ⟨e, he, hem⟩ := emit_of_firstFail h
  exact ⟨e, he, by simp [driveThen, hem]⟩

/-- Setting one line leaves the others. -/
theorem PerLine.get_set_of_ne {α : Type} (ln : PerLine α) {l m : Line} (v : α) (h : m ≠ l) :
    (ln.set m v).get l = ln.get l := by
  cases m <;> cases l <;> first | rfl | exact absurd rfl h

@[simp] theorem PerLine.get_set_self {α : Type} (ln : PerLine α) (l : Line) (v : α) : (ln.set l v).get l = v := by
  cases l <;> rfl

/-- Driving a line to 1 is a rising edge exactly when the line is not known to be at 1 already. -/
theorem rises_iff (ln : Lines) (sp : PerLine Bool) (l : Line) :
    rises ln sp l = true ↔ (sp.get l = true → ln.get l = false) := by
  unfold rises
  cases ln.get l <;> cases sp.get l <;> simp

@[simp] theorem rises_of_low {ln : Lines} (sp : PerLine Bool) {l : Line} (h : ln.get l = false) : rises ln sp l = true := by
  simp [rises, h]

theorem specifiedAfter_append (sp : PerLine Bool) (es fs : List LineEvent) :
    specifiedAfter sp (es ++ fs) = specifiedAfter (specifiedAfter sp es) fs := by
  simp [specifiedAfter, List.foldl_append]

/-- The state after a failing event, in the terms of R207 and R208. -/
theorem cutShort_applied {es : List LineEvent} {s : State} {j : Nat} {e : LineEvent} (he : es[j]? = some e) :
    CutShort s ((applied (es.take j) s).eventFail e) es j := by
  have hj : j < es.length := by
    by_contra h
    simp [List.getElem?_eq_none (Nat.not_lt.1 h)] at he
  have hl : (es.take j).length = j := by simp; omega
  refine ⟨?_, ?_, ?_, ?_, ?_, ?_, ?_⟩
  · simp [List.take_add_one, he]
  · intro l hne
    simp only [State.eventFail_lines, applied_lines]
    exact PerLine.get_set_of_ne _ _ (by rintro rfl; exact hne (by simp [he]))
  · intro l
    simp only [State.eventFail_specified, applied_specified, he, Option.map_some, Option.some.injEq]
    split
    · subst_vars; exact PerLine.get_set_self _ _ _
    · exact PerLine.get_set_of_ne _ _ ‹_›
  · simp [hl]
  · simp [hl]; omega
  · simp [undefinedCells]
  · simp [undefinedCells]

end Sys2Proof.Machine
end

