-- ==== Sys2Proof/Laws/ShiftOut.lean ====
section
/-! SUPPORT. The events of the shift-out procedure: how many, which one stands where, and what they do to the lines and
the chain. -/

namespace Sys2Proof.Machine

/-- The events of the bits `0 .. n - 1` when the bit at step `i` is `f i`. -/
def bitsEvents (f : Nat → Bool) (n : Nat) : List LineEvent :=
  (List.range n).flatMap fun i => bitEvents (f i)

theorem bitsEvents_succ (f : Nat → Bool) (n : Nat) : bitsEvents f (n + 1) = bitsEvents f n ++ bitEvents (f n) := by
  simp [bitsEvents, List.range_succ]

theorem shiftOutEvents_eq (o : BitOrder) (n v : Nat) :
    shiftOutEvents o n v =
      [⟨.clr, false⟩, ⟨.clr, true⟩] ++ bitsEvents (sentBit o (8 * n) v) (8 * n) ++ [⟨.lck, true⟩, ⟨.lck, false⟩] := rfl

@[simp] theorem bitsEvents_length (f : Nat → Bool) (n : Nat) : (bitsEvents f n).length = 3 * n := by
  induction n with
  | zero => rfl
  | succ n ih => rw [bitsEvents_succ, List.length_append, ih]; simp [bitEvents, pulse]; omega

/-- `24N + 4` events (R152). -/
@[simp] theorem shiftOutEvents_length (o : BitOrder) (n v : Nat) : (shiftOutEvents o n v).length = 24 * n + 4 := by
  rw [shiftOutEvents_eq]; simp; omega

/-- The event at each place among the bits. -/
theorem bitsEvents_getElem? (f : Nat → Bool) (n k : Nat) (h : k < 3 * n) :
    (bitsEvents f n)[k]? =
      match k % 3 with
      | 0 => some ⟨.ser, f (k / 3)⟩
      | 1 => some ⟨.sck, true⟩
      | _ => some ⟨.sck, false⟩ := by
  induction n with
  | zero => omega
  | succ n ih =>
    rw [bitsEvents_succ]
    by_cases hk : k < 3 * n
    · rw [List.getElem?_append_left (by simpa using hk)]
      exact ih hk
    · rw [List.getElem?_append_right (by simpa using Nat.not_lt.1 hk), bitsEvents_length]
      obtain h' | h' | h' : k = 3 * n ∨ k = 3 * n + 1 ∨ k = 3 * n + 2 := by omega
      · subst h'; simp [bitEvents, pulse]
      · subst h'
        simp [bitEvents, pulse, Nat.add_mod]
      · subst h'
        simp [bitEvents, pulse, Nat.add_mod]

theorem linesAfter_append (ln : Lines) (es fs : List LineEvent) :
    linesAfter ln (es ++ fs) = linesAfter (linesAfter ln es) fs := by
  simp [linesAfter, List.foldl_append]

/-- The bits' events leave every line but `SER` and `SCK`, and `SCK` at 0. -/
theorem linesAfter_bitsEvents (f : Nat → Bool) (n : Nat) (ln : Lines) (h : ln.sck = false) :
    (linesAfter ln (bitsEvents f n)).sck = false ∧ (linesAfter ln (bitsEvents f n)).lck = ln.lck ∧
    (linesAfter ln (bitsEvents f n)).clr = ln.clr ∧ (linesAfter ln (bitsEvents f n)).oe = ln.oe := by
  induction n with
  | zero => simp [bitsEvents, linesAfter, h]
  | succ n ih =>
    rw [bitsEvents_succ, linesAfter_append]
    generalize linesAfter ln (bitsEvents f n) = l at ih ⊢
    simpa [linesAfter, bitEvents, pulse, PerLine.set] using ih.2

/-- Events leave the level of a line none of them drives, and whether it is specified. -/
theorem after_of_not_driven {l : Line} {es : List LineEvent} (h : ∀ e ∈ es, e.line ≠ l) (ln : Lines) (sp : PerLine Bool) :
    (linesAfter ln es).get l = ln.get l ∧ (specifiedAfter sp es).get l = sp.get l := by
  induction es generalizing ln sp with
  | nil => exact ⟨rfl, rfl⟩
  | cons e es ih =>
    have hne := h e (List.mem_cons_self ..)
    have := ih (fun f hf => h f (List.mem_cons_of_mem _ hf)) (ln.set e.line e.level) (sp.set e.line true)
    rwa [PerLine.get_set_of_ne _ _ hne, PerLine.get_set_of_ne _ _ hne] at this

/-- The bits' events drive `SER` and `SCK` only. -/
theorem line_of_mem_bitsEvents {f : Nat → Bool} {n : Nat} {e : LineEvent} (h : e ∈ bitsEvents f n) :
    e.line = .ser ∨ e.line = .sck := by
  simp only [bitsEvents, bitEvents, pulse, List.mem_flatMap, List.mem_cons, List.not_mem_nil, or_false] at h
  rcases h with ⟨i, -, rfl | rfl | rfl⟩ <;> simp

/-- Whatever the lines were, the bits' events leave the lines they do not drive. -/
theorem linesAfter_bitsEvents_others (f : Nat → Bool) (n : Nat) (ln : Lines) :
    (linesAfter ln (bitsEvents f n)).lck = ln.lck ∧
    (linesAfter ln (bitsEvents f n)).clr = ln.clr ∧ (linesAfter ln (bitsEvents f n)).oe = ln.oe ∧
    (0 < n → (linesAfter ln (bitsEvents f n)).sck = false) := by
  induction n with
  | zero => simp [bitsEvents, linesAfter]
  | succ n ih =>
    rw [bitsEvents_succ, linesAfter_append]
    generalize linesAfter ln (bitsEvents f n) = l at ih ⊢
    simpa [linesAfter, bitEvents, pulse, PerLine.set] using ⟨ih.1, ih.2.1, ih.2.2.1⟩

/-- The lines after a whole shift-out (R258): the clock and latch pulses have ended and clear is at 1; `OE` is not driven. -/
theorem linesAfter_shiftOut (o : BitOrder) (n v : Nat) (ln : Lines) :
    (linesAfter ln (shiftOutEvents o n v)).lck = false ∧ (linesAfter ln (shiftOutEvents o n v)).clr = true ∧
    (linesAfter ln (shiftOutEvents o n v)).oe = ln.oe ∧
    ((0 < n ∨ ln.sck = false) → (linesAfter ln (shiftOutEvents o n v)).sck = false) := by
  rw [shiftOutEvents_eq, linesAfter_append, linesAfter_append]
  have h1 : linesAfter ln [⟨.clr, false⟩, ⟨.clr, true⟩] = { ln with clr := true } := by simp [linesAfter, PerLine.set]
  rw [h1]
  have h2 := linesAfter_bitsEvents_others (sentBit o (8 * n) v) (8 * n) { ln with clr := true }
  have h3 := linesAfter_bitsEvents (sentBit o (8 * n) v) (8 * n) { ln with clr := true }
  generalize linesAfter { ln with clr := true } (bitsEvents (sentBit o (8 * n) v) (8 * n)) = l at h2 h3 ⊢
  simp only at h2 h3
  refine ⟨by simp [linesAfter, PerLine.set], by simp [linesAfter, PerLine.set, h2], by simp [linesAfter, PerLine.set, h2], ?_⟩
  rintro (h | h)
  · simpa [linesAfter, PerLine.set] using h2.2.2.2 (by omega)
  · simpa [linesAfter, PerLine.set] using (h3 h).1

/-! ### The chain under a shift-out -/

/-- The bits `f 0 .. f (n - 1)` shifted into cells that were `base`: the last one stands in stage 0. -/
def shiftedIn (f : Nat → Bool) (base : List Cell) : Nat → List Cell
  | 0 => base
  | n + 1 => shiftIn (f n) (shiftedIn f base n)

theorem shiftIn_length (b : Level) (cells : List Cell) : (shiftIn b cells).length = cells.length := by simp [shiftIn]

theorem shiftedIn_length (f : Nat → Bool) (base : List Cell) (n : Nat) : (shiftedIn f base n).length = base.length := by
  induction n with
  | zero => rfl
  | succ n ih => rw [shiftedIn, shiftIn_length, ih]

theorem shiftIn_getElem? (b : Level) (cells : List Cell) (k : Nat) (h : k < cells.length) :
    (shiftIn b cells)[k]? = if k = 0 then some (some b) else cells[k - 1]? := by
  rw [shiftIn, List.getElem?_dropLast]
  cases k with
  | zero => simp [h]
  | succ k => simp [h]

theorem shiftedIn_getElem? (f : Nat → Bool) (base : List Cell) (n k : Nat) (h : k < base.length) :
    (shiftedIn f base n)[k]? = if k < n then some (some (f (n - 1 - k))) else base[k - n]? := by
  induction n generalizing k with
  | zero => simp [shiftedIn]
  | succ n ih =>
    rw [shiftedIn, shiftIn_getElem? _ _ _ (by simpa [shiftedIn_length] using h)]
    cases k with
    | zero => simp
    | succ k =>
      simp only [Nat.add_one_ne_zero, if_false, Nat.add_sub_cancel]
      rw [ih k (by omega)]
      by_cases hk : k < n
      · simp only [hk, if_true, show k + 1 < n + 1 by omega]
        congr 3
        omega
      · simp only [hk, if_false, show ¬ k + 1 < n + 1 by omega]
        congr 1
        omega

/-- The bits' events, begun with a rising `SCK` next and `CLR` at 1, shift the bits in and leave the latches. -/
theorem applied_bitsEvents (f : Nat → Bool) (n : Nat) (s : State) (h : rises s.lines s.specified .sck = true)
    (hc : s.lines.clr = true) :
    (applied (bitsEvents f n) s).stage = shiftedIn f s.stage n ∧ (applied (bitsEvents f n) s).latch = s.latch := by
  induction n with
  | zero => exact ⟨rfl, rfl⟩
  | succ n ih =>
    rw [bitsEvents_succ, applied_append]
    have hl := linesAfter_bitsEvents_others f n s.lines
    rw [← applied_lines] at hl
    have hr : rises (applied (bitsEvents f n) s).lines (applied (bitsEvents f n) s).specified .sck = true := by
      cases n with
      | zero => exact h
      | succ n => exact rises_of_low _ (hl.2.2.2 (Nat.succ_pos n))
    generalize applied (bitsEvents f n) s = u at ih hl hr ⊢
    obtain ⟨-, hclr, -, -⟩ := hl
    simp only [rises, PerLine.get] at hr
    simp [bitEvents, pulse, stageAfter, latchAfter, rises, PerLine.get, PerLine.set, hr, hclr, hc, ih, shiftedIn]

/-- The bits' events never change the latches. -/
theorem applied_bitsEvents_latch (f : Nat → Bool) (n : Nat) (s : State) :
    (applied (bitsEvents f n) s).latch = s.latch := by
  induction n with
  | zero => rfl
  | succ n ih =>
    rw [bitsEvents_succ, applied_append]
    generalize applied (bitsEvents f n) s = u at ih ⊢
    simp [bitEvents, pulse, latchAfter, ih]

/-- Shifting `w` bits into a zeroed chain gives R70's pattern. -/
theorem shiftedIn_zero (o : BitOrder) (w v len : Nat) :
    shiftedIn (sentBit o w v) (List.replicate len (some false)) w = shiftedOut o w v len := by
  apply List.ext_getElem?
  intro k
  by_cases hk : k < len
  · rw [shiftedIn_getElem? _ _ _ _ (by simpa using hk)]
    simp only [shiftedOut, List.getElem?_map, List.getElem?_range hk, Option.map_some, shiftedOutCell]
    split
    · rfl
    · simp [show k - w < len by omega]
  · rw [List.getElem?_eq_none (by simpa [shiftedIn_length] using hk), List.getElem?_eq_none (by simpa [shiftedOut] using hk)]

/-- The chain after a whole shift-out begun where either clock's next drive to 1 is a rising edge (R70). -/
theorem applied_shiftOut_chain (o : BitOrder) (n v : Nat) (s : State) (h : ClocksReady s) :
    (applied (shiftOutEvents o n v) s).stage = shiftedOut o (8 * n) v s.stage.length ∧
    (applied (shiftOutEvents o n v) s).latch = shiftedOut o (8 * n) v s.stage.length := by
  rw [shiftOutEvents_eq, applied_append, applied_append]
  have h0 : (applied [⟨.clr, false⟩, ⟨.clr, true⟩] s).stage = List.replicate s.stage.length (some false) := by
    simp [stageAfter, zeroCells]
  have h1 : (applied [⟨.clr, false⟩, ⟨.clr, true⟩] s).lines = { s.lines with clr := true } := by
    simp [PerLine.set]
  have h2 : (applied [⟨.clr, false⟩, ⟨.clr, true⟩] s).specified = { s.specified with clr := true } := by
    simp [PerLine.set]
  generalize applied [⟨.clr, false⟩, ⟨.clr, true⟩] s = u at h0 h1 h2 ⊢
  have hsck : rises u.lines u.specified .sck = true := (rises_iff _ _ _).2 (by rw [h1, h2]; exact h.1)
  have hb := applied_bitsEvents (sentBit o (8 * n) v) (8 * n) u hsck (by simp [h1])
  have hb2 := after_of_not_driven (l := .lck) (es := bitsEvents (sentBit o (8 * n) v) (8 * n))
    (fun e he => by rcases line_of_mem_bitsEvents he with h | h <;> simp [h]) u.lines u.specified
  rw [← applied_lines, ← applied_specified] at hb2
  generalize applied (bitsEvents (sentBit o (8 * n) v) (8 * n)) u = u' at hb hb2 ⊢
  have hlck : rises u'.lines u'.specified .lck = true :=
    (rises_iff _ _ _).2 (by rw [hb2.1, hb2.2, h1, h2]; exact h.2)
  rw [h0, shiftedIn_zero] at hb
  simp [stageAfter, latchAfter, hlck, hb.1]

end Sys2Proof.Machine
end

