-- ==== Sys2Proof/Laws/Exec.lean ====
section
/-! SUPPORT. Every meaning has one shape (spec/10_state.md R33): the checks, the before-events writes, the events, the
after-events writes, one response. Said once here for all fourteen commands; later proofs cite it instead of unfolding a
meaning. -/

namespace Sys2Proof.Machine

theorem cfg_eq_of_ne {s : State} (h : s.cfg ≠ .unconfigured) : s.cfg = .configured := by
  cases hc : s.cfg
  · exact absurd hc h
  · rfl

theorem cfg_eq_of_ne' {s : State} (h : s.cfg ≠ .configured) : s.cfg = .unconfigured := by
  cases hc : s.cfg
  · rfl
  · exact absurd hc h

@[simp] theorem driveThen_nil (after : State → State) (d : Nat) (s : State) :
    driveThen [] after d s = (after s).respond .ok d := rfl

/-- A command as R33's tables give it. -/
def runByTables (i : Instr) (s : State) : State :=
  match checkVerdict i s with
  | some e => s.raise e
  | none =>
    driveThen (eventsOf i (beforeEvents i s)) (afterEvents i) (datumOf i (beforeEvents i s)) (beforeEvents i s)

theorem indexVerdict_cases (c : Nat) (k : Int) :
    (k < 0 ∨ (c : Int) ≤ k) ∧ indexVerdict c k = some .indexError ∨
    ¬ (k < 0 ∨ (c : Int) ≤ k) ∧ indexVerdict c k = none := by
  unfold indexVerdict
  by_cases h : k < 0 ∨ (c : Int) ≤ k
  · exact .inl ⟨h, by rw [if_neg (by omega)]⟩
  · exact .inr ⟨h, by rw [if_pos (by omega)]⟩

/-- A command that checks an index and then does `f` is what the tables give. -/
theorem exec_of_index {i : Instr} {s : State} (capacity : Nat) (k : Int) (f : Nat → State → State)
    (hr : requiredCfg i = .configured) (hv : operandVerdict i s = indexVerdict capacity k)
    (hx : exec i s = .next (whenConfigured (withIndex capacity k f) s))
    (hf : f k.toNat s =
      driveThen (eventsOf i (beforeEvents i s)) (afterEvents i) (datumOf i (beforeEvents i s)) (beforeEvents i s)) :
    exec i s = .next (runByTables i s) := by
  rw [hx]
  congr 1
  by_cases hc : s.cfg = .configured
  · rcases indexVerdict_cases capacity k with ⟨h, hi⟩ | ⟨h, hi⟩ <;>
      simp [whenConfigured, withIndex, runByTables, checkVerdict, hr, hc, hv, hi, h, hf]
  · simp [whenConfigured, runByTables, checkVerdict, hr, cfg_eq_of_ne' hc]

/-- A command without operands to check, that does `f`, is what the tables give. -/
theorem exec_of_noIndex {i : Instr} {s : State} (f : State → State)
    (hr : requiredCfg i = .configured) (hv : operandVerdict i s = none)
    (hx : exec i s = .next (whenConfigured f s))
    (hf : f s =
      driveThen (eventsOf i (beforeEvents i s)) (afterEvents i) (datumOf i (beforeEvents i s)) (beforeEvents i s)) :
    exec i s = .next (runByTables i s) := by
  rw [hx]
  congr 1
  by_cases hc : s.cfg = .configured
  · simp [whenConfigured, runByTables, checkVerdict, hr, hc, hv, hf]
  · simp [whenConfigured, runByTables, checkVerdict, hr, cfg_eq_of_ne' hc]

theorem execConfig_eq (len : Int) (order : BitVec 2) (s : State) :
    execConfig len order s = .next (runByTables (.config len order) s) := by
  unfold execConfig runByTables checkVerdict requiredCfg operandVerdict
  congr 1
  by_cases hc : s.cfg = .configured
  · simp [hc]
  · have hu := cfg_eq_of_ne' hc
    simp only [hu, if_true]
    by_cases h1 : len ≤ 0
    · simp [h1, show ¬ 1 ≤ len by omega]
    · by_cases h2 : (s.params.nMax : Int) < len
      · simp [h1, h2, show ¬ len ≤ (s.params.nMax : Int) by omega]
      · cases ho : orderOf order with
        | none => simp [h1, h2]
        | some o =>
          simp [h1, h2, show 1 ≤ len by omega, show len ≤ (s.params.nMax : Int) by omega, beforeEvents, eventsOf,
            datumOf, show afterEvents (.config len order) = fun t => t.construct len.toNat o by
              funext t; simp [afterEvents, ho]]

/-- Every meaning is what R33's tables say of the command. -/
theorem exec_eq_runByTables (i : Instr) (s : State) : exec i s = .next (runByTables i s) := by
  cases i with
  | config len order => exact execConfig_eq len order s
  | clear => exact exec_of_noIndex _ rfl rfl rfl rfl
  | rdreg => exact exec_of_noIndex _ rfl rfl rfl rfl
  | rdbyte k => exact exec_of_index s.chainLen k _ rfl rfl rfl rfl
  | rdbit b => exact exec_of_index s.width b _ rfl rfl rfl rfl
  | wrreg v => exact exec_of_noIndex _ rfl rfl rfl rfl
  | refresh => exact exec_of_noIndex _ rfl rfl rfl rfl
  | wrbyte y k => exact exec_of_index s.chainLen k _ rfl rfl rfl rfl
  | wrbit st b => exact exec_of_index s.width b _ rfl rfl rfl rfl
  | pget p => exact exec_of_index s.width p _ rfl rfl rfl rfl
  | pset p st => exact exec_of_index s.width p _ rfl rfl rfl rfl
  | ptgl p => exact exec_of_index s.width p _ rfl rfl rfl rfl
  | pon p => exact exec_of_index s.width p _ rfl rfl rfl rfl
  | poff p => exact exec_of_index s.width p _ rfl rfl rfl rfl

/-- The before-events writes change at most the shadow. -/
theorem beforeEvents_eq (i : Instr) (s : State) : ∃ v, beforeEvents i s = s.setShadow v := by
  cases i <;> exact ⟨_, rfl⟩

/-- The checks read CFG_STATE, CHAIN_LEN and the parameters only. -/
theorem checkVerdict_congr (i : Instr) {s t : State} (hc : t.cfg = s.cfg) (hn : t.chainLen = s.chainLen)
    (hp : t.params = s.params) : checkVerdict i t = checkVerdict i s := by
  cases s; cases t
  simp only at hc hn hp
  subst hc hn hp
  cases i <;> rfl

/-- The events are computed from BIT_ORDER, CHAIN_LEN and the shadow only (42_write.md R163). -/
theorem eventsOf_congr (i : Instr) {s t : State} (ho : t.bitOrder = s.bitOrder) (hn : t.chainLen = s.chainLen)
    (hs : t.shadow = s.shadow) : eventsOf i t = eventsOf i s := by
  cases s; cases t
  simp only at ho hn hs
  subst ho hn hs
  cases i <;> rfl

/-- The before-events writes do not change the verdict. -/
theorem checkVerdict_beforeEvents (i : Instr) (s : State) : checkVerdict i (beforeEvents i s) = checkVerdict i s := by
  obtain ⟨v, hb⟩ := beforeEvents_eq i s
  rw [hb]
  exact checkVerdict_congr i rfl rfl rfl

/-- What a passed check says. -/
theorem passed_check {i : Instr} {s : State} (h : checkVerdict i s = none) :
    s.cfg = requiredCfg i ∧ operandVerdict i s = none := by
  unfold checkVerdict at h
  split at h <;> simp_all

/-- EVERYTHING a command can do: be refused by a check with nothing changed; complete; or end with HardwareFault at its
first event answered `fail`. -/
theorem exec_cases (i : Instr) (s : State) :
    (∃ e, checkVerdict i s = some e ∧ e ≠ .hardwareFault ∧ exec i s = .next (s.raise e)) ∨
    (checkVerdict i s = none ∧ ∃ u, u = beforeEvents i s ∧ AllOk s (eventsOf i u).length ∧
      exec i s = .next ((afterEvents i (applied (eventsOf i u) u)).respond .ok (datumOf i u))) ∨
    (checkVerdict i s = none ∧ ∃ u j e, u = beforeEvents i s ∧ FirstFail s (eventsOf i u).length j ∧
      (eventsOf i u)[j]? = some e ∧
      exec i s = .next (((applied ((eventsOf i u).take j) u).eventFail e).raise .hardwareFault)) := by
  rw [exec_eq_runByTables, runByTables]
  cases hv : checkVerdict i s with
  | some e =>
    refine .inl ⟨e, rfl, ?_, rfl⟩
    rintro rfl
    unfold checkVerdict at hv
    split at hv <;> cases i <;> simp [operandVerdict, indexVerdict] at hv
  | none =>
    refine .inr ?_
    have ha : ∀ j, (beforeEvents i s).answerAt j = s.answerAt j := by
      obtain ⟨v, hb⟩ := beforeEvents_eq i s
      simp [hb]
    generalize beforeEvents i s = u at ha ⊢
    rcases allOk_or_firstFail s (eventsOf i u).length with h | ⟨j, h⟩
    · exact .inl ⟨rfl, u, rfl, h, congrArg _ (driveThen_of_allOk _ _ fun j hj => (ha j).trans (h j hj))⟩
    · obtain ⟨e, he, hd⟩ := driveThen_of_firstFail (s := u) (afterEvents i) (datumOf i u)
        ⟨h.1, fun k hk => (ha k).trans (h.2.1 k hk), (ha j).trans h.2.2⟩
      exact .inr ⟨rfl, u, j, e, rfl, h, he, congrArg _ hd⟩

/-- The after-events writes leave the surroundings, the trace, the lines and the chain. -/
theorem afterEvents_same (i : Instr) (s : State) :
    (afterEvents i s).params = s.params ∧ (afterEvents i s).seq = s.seq ∧ (afterEvents i s).host = s.host ∧
    (afterEvents i s).events = s.events ∧ (afterEvents i s).lines = s.lines ∧ (afterEvents i s).stage = s.stage ∧
    (afterEvents i s).latch = s.latch ∧ (afterEvents i s).responses = s.responses ∧
    (afterEvents i s).answers = s.answers ∧ (afterEvents i s).fresh = s.fresh ∧
    (afterEvents i s).specified = s.specified := by
  cases i <;> simp [afterEvents]

/-- The events of a write command are the shift-out of the shadow. -/
theorem eventsOf_write {i : Instr} (h : isWrite i = true) (s : State) :
    eventsOf i s = shiftOutEvents s.bitOrder s.chainLen s.shadow := by
  cases i <;> first | rfl | cases h

theorem afterEvents_write {i : Instr} (h : isWrite i = true) (s : State) : afterEvents i s = s := by
  cases i <;> first | rfl | cases h

theorem datumOf_write {i : Instr} (h : isWrite i = true) (s : State) : datumOf i s = 0 := by
  cases i <;> first | rfl | cases h

/-- A write command whose checks pass does what `WritesAndShiftsOut` says, for the shadow its before-events write
leaves. -/
theorem writesAndShiftsOut {i : Instr} {s : State} {v : Nat} (hw : isWrite i = true) (hc : checkVerdict i s = none)
    (hb : beforeEvents i s = s.setShadow v) : WritesAndShiftsOut i s v := by
  have hx : exec i s = .next (driveThen (shiftOutEvents s.bitOrder s.chainLen v) id 0 (s.setShadow v)) := by
    rw [exec_eq_runByTables, runByTables, hc]
    simp only [hb, eventsOf_write hw, datumOf_write hw]
    rw [show afterEvents i = id from funext (afterEvents_write hw)]
    rfl
  refine ⟨fun h => ?_, fun j h => ?_⟩
  · refine ⟨_, hx, ?_⟩
    have h' : AllOk (s.setShadow v) (shiftOutEvents s.bitOrder s.chainLen v).length := by
      rw [shiftOutEvents_length]; exact h
    rw [driveThen_of_allOk _ _ h']
    simp [Responded, Emitted, SameConfiguration, SameSurroundings]
  · refine ⟨_, hx, ?_⟩
    have h' : FirstFail (s.setShadow v) (shiftOutEvents s.bitOrder s.chainLen v).length j := by
      rw [shiftOutEvents_length]; exact h
    obtain ⟨e, he, hd⟩ := driveThen_of_firstFail (s := s.setShadow v) id 0 h'
    rw [hd]
    have hcut := cutShort_applied (s := s.setShadow v) he
    refine ⟨by simp, by simp [Responded, CmdError.code], ?_, by simp [SameConfiguration], by simp [SameSurroundings]⟩
    exact hcut

/-- An index in range passes its check. -/
theorem indexVerdict_of_lt {c k : Nat} (h : k < c) : indexVerdict c (k : Int) = none := by
  unfold indexVerdict
  rw [if_pos (by omega)]

end Sys2Proof.Machine
end

