-- ==== Sys2Proof/Laws/PerInstr.lean ====
section
/-! SUPPORT. What holds of every command as syntax, one lemma per constructor: its encoding spells its own row of the
opcode map (spec/30_encoding.md R96). -/

namespace Sys2Proof.Laws.EncodesRow

/-- The command word of the command matches the row of its mnemonic. -/
def Statement (i : Instr) : Prop :=
  ∃ r ∈ opcodeTable, r.mnemonic = i.mnemonic ∧ r.Matches (encode i).cw

/-- The row of a command with an index, for an assembled word. -/
theorem matches_indexed (op : BitVec 4) (low : BitVec 16) (pattern : CmdWord)
    (h : pattern = encodeWord op 0 0) : encodeWord op 0 low &&& 0xFFFF0000#32 = pattern := by
  subst h
  apply BitVec.eq_of_getLsbD_eq
  intro i hi
  rw [BitVec.getLsbD_and, getLsbD_encodeWord, getLsbD_encodeWord]
  have hm : (0xFFFF0000#32).getLsbD i = decide (16 ≤ i) := by
    interval_cases i <;> rfl
  rw [hm]
  by_cases h16 : i < 16
  · simp [h16, Nat.not_le.2 h16]
  · simp [h16, Nat.not_lt.1 h16]

theorem config (len : Int) (order : BitVec 2) : Statement (.config len order) := by
  refine ⟨⟨"CONFIG", 0x10000000, 0xFFFC0000⟩, by decide, rfl, ?_⟩
  show encodeWord 1 order (field16 len) &&& 0xFFFC0000#32 = 0x10000000#32
  have h1 : (0x10000000#32) = encodeWord 1 0 0 := by decide
  rw [h1]
  apply BitVec.eq_of_getLsbD_eq
  intro i hi
  rw [BitVec.getLsbD_and, getLsbD_encodeWord, getLsbD_encodeWord]
  have hm : (0xFFFC0000#32).getLsbD i = decide (18 ≤ i) := by
    interval_cases i <;> rfl
  rw [hm]
  by_cases h16 : i < 16
  · simp [h16, show ¬ 18 ≤ i by omega]
  · by_cases h18 : i < 18
    · simp [h16, h18]
    · simp [h16, h18, Nat.not_lt.1 h18]

theorem clear : Statement .clear := ⟨⟨"CLEAR", 0x20000000, 0xFFFFFFFF⟩, by decide, rfl, by decide⟩
theorem rdreg : Statement .rdreg := ⟨⟨"RDREG", 0x30000000, 0xFFFFFFFF⟩, by decide, rfl, by decide⟩
theorem rdbyte (k : Int) : Statement (.rdbyte k) :=
  ⟨⟨"RDBYTE", 0x40000000, 0xFFFF0000⟩, by decide, rfl, matches_indexed 4 _ _ (by decide)⟩
theorem rdbit (b : Int) : Statement (.rdbit b) :=
  ⟨⟨"RDBIT", 0x50000000, 0xFFFF0000⟩, by decide, rfl, matches_indexed 5 _ _ (by decide)⟩
theorem wrreg (v : Nat) : Statement (.wrreg v) :=
  ⟨⟨"WRREG", 0x60000000, 0xFFFFFFFF⟩, by decide, rfl, show encodeWord 6 0 0 &&& 0xFFFFFFFF#32 = 0x60000000#32 by decide⟩
theorem refresh : Statement .refresh := ⟨⟨"REFRESH", 0x70000000, 0xFFFFFFFF⟩, by decide, rfl, by decide⟩
theorem wrbyte (y : Nat) (k : Int) : Statement (.wrbyte y k) :=
  ⟨⟨"WRBYTE", 0x80000000, 0xFFFF0000⟩, by decide, rfl, matches_indexed 8 _ _ (by decide)⟩
theorem wrbit (st : Nat) (b : Int) : Statement (.wrbit st b) :=
  ⟨⟨"WRBIT", 0x90000000, 0xFFFF0000⟩, by decide, rfl, matches_indexed 9 _ _ (by decide)⟩
theorem pget (p : Int) : Statement (.pget p) :=
  ⟨⟨"PGET", 0xA0000000, 0xFFFF0000⟩, by decide, rfl, matches_indexed 10 _ _ (by decide)⟩
theorem pset (p : Int) (st : Nat) : Statement (.pset p st) :=
  ⟨⟨"PSET", 0xB0000000, 0xFFFF0000⟩, by decide, rfl, matches_indexed 11 _ _ (by decide)⟩
theorem ptgl (p : Int) : Statement (.ptgl p) :=
  ⟨⟨"PTGL", 0xC0000000, 0xFFFF0000⟩, by decide, rfl, matches_indexed 12 _ _ (by decide)⟩
theorem pon (p : Int) : Statement (.pon p) :=
  ⟨⟨"PON", 0xD0000000, 0xFFFF0000⟩, by decide, rfl, matches_indexed 13 _ _ (by decide)⟩
theorem poff (p : Int) : Statement (.poff p) :=
  ⟨⟨"POFF", 0xE0000000, 0xFFFF0000⟩, by decide, rfl, matches_indexed 14 _ _ (by decide)⟩

end Sys2Proof.Laws.EncodesRow
end

