-- ==== Sys2Proof/Tests/Slice0.lean ====
section
/-! SUPPORT. The model's own tests: words written out from spec/30_encoding.md, vectors of spec/95_test_vectors.md (the
vector's number is in the docstring), and, for every obligation with hypotheses, a state and operands that meet them. -/

namespace Sys2Proof.Machine.Tests

/-! ### Helpers -/

/-- An unconfigured controller with a chain of one part. -/
def unconfigured (answers : List Answer) : State :=
  { State.resetOf { Config.reference with parts := 1 } with answers := answers }

/-- A controller constructed with chain length `n`, holding the shadow `v`, before a chain of `n` parts of undefined
contents. -/
def constructed (o : BitOrder) (n v : Nat) (answers : List Answer) : State :=
  { State.resetOf { Config.reference with parts := n } with
    cfg := .configured
    chainLen := n
    bitOrder := o
    shadow := v
    lines := ⟨false, false, false, false, true⟩
    specified := PerLine.all true
    answers := answers }

/-- `n` answers `ok`. -/
def oks (n : Nat) : List Answer := List.replicate n .ok

/-- `n` answers `ok`, then `fail`. -/
def failAt (n : Nat) : List Answer := oks n ++ [.fail]

/-- A configured controller of one part with the shadow `v`, all answers of the next events in the script. -/
def ready (v : Nat) : State := constructed .normalLSBFirst 1 v (oks 56)

/-- One in ReverseMSBFirst whose event `j`, counted from 0, is answered `fail`. -/
def failing (j : Nat) : State := constructed .reverseMSBFirst 1 0x5A (failAt j)

/-- A configured controller whose last event, a drive of `l` to 1, failed. -/
def afterFailed (l : Line) : State := (ready 0xA5).eventFail ⟨l, true⟩

/-- The next state of an outcome. -/
def nextOf (x : Host.Outcome State Fault Refusal) : Option State :=
  match x with
  | .next t => some t
  | .fault _ => none
  | .refused _ => none

/-- What a command leaves: the response, the shadow, the number of events. -/
def effect (i : Instr) (s : State) : Option (List Response × Nat × Nat) :=
  (nextOf (exec i s)).map fun t => (t.responses, t.shadow, t.events.length)

/-- A string of 0 and 1 as the vectors write it, read as cells. -/
def cells (text : List Nat) : List Cell := text.map fun d => some (d = 1)

/-- The latches a command leaves. -/
def latchesAfter (i : Instr) (s : State) : Option (List Cell) :=
  (nextOf (exec i s)).map State.latch

/-- The events a command emits. -/
def eventsAfter (i : Instr) (s : State) : Option (List LineEvent) :=
  (nextOf (exec i s)).map State.events

/-! ### Decoding (30_encoding.md R91 to R98, R102; words written out from the fields) -/

/-- `OP = 1`, `ORDER = 01`, `LEN = 2`. -/
theorem test_decode_config :
    decode ⟨0b0001_0000000000_01_0000000000000010, 0⟩ = .ok (.config 2 1) := by decide

/-- `LEN = 0xFFFF` is -1, `ORDER = 11`. -/
theorem test_decode_config_negative :
    decode ⟨0b0001_0000000000_11_1111111111111111, 5⟩ = .ok (.config (-1) 3) := by decide

/-- `OP = 2`. -/
theorem test_decode_clear : decode ⟨0b0010_0000000000_00_0000000000000000, 0⟩ = .ok .clear := by decide

/-- `OP = 3`; `CD` is ignored. -/
theorem test_decode_rdreg : decode ⟨0b0011_0000000000_00_0000000000000000, 99⟩ = .ok .rdreg := by decide

/-- `OP = 4`, `IDX = 7`. -/
theorem test_decode_rdbyte : decode ⟨0b0100_0000000000_00_0000000000000111, 0⟩ = .ok (.rdbyte 7) := by decide

/-- `OP = 5`, `IDX = 0x8000` is -32768. -/
theorem test_decode_rdbit :
    decode ⟨0b0101_0000000000_00_1000000000000000, 0⟩ = .ok (.rdbit (-32768)) := by decide

/-- `OP = 6`, the register operand in `CD`. -/
theorem test_decode_wrreg :
    decode ⟨0b0110_0000000000_00_0000000000000000, 0x1234⟩ = .ok (.wrreg 0x1234) := by decide

/-- `OP = 7`. -/
theorem test_decode_refresh : decode ⟨0b0111_0000000000_00_0000000000000000, 0⟩ = .ok .refresh := by decide

/-- `OP = 8`: the value is `CD`, the index is `IDX`. -/
theorem test_decode_wrbyte :
    decode ⟨0b1000_0000000000_00_0000000000000001, 0x1FF⟩ = .ok (.wrbyte 0x1FF 1) := by decide

/-- `OP = 9`: the state is `CD`, the index is `IDX`. -/
theorem test_decode_wrbit : decode ⟨0b1001_0000000000_00_0000000000001001, 3⟩ = .ok (.wrbit 3 9) := by decide

/-- `OP = 10`. -/
theorem test_decode_pget : decode ⟨0b1010_0000000000_00_0000000000000011, 0⟩ = .ok (.pget 3) := by decide

/-- `OP = 11`: the pin is `IDX`, the state is `CD`. -/
theorem test_decode_pset : decode ⟨0b1011_0000000000_00_0000000000000011, 2⟩ = .ok (.pset 3 2) := by decide

/-- `OP = 12`. -/
theorem test_decode_ptgl : decode ⟨0b1100_0000000000_00_1111111111111111, 0⟩ = .ok (.ptgl (-1)) := by decide

/-- `OP = 13`, `IDX = 0x7FFF`. -/
theorem test_decode_pon : decode ⟨0b1101_0000000000_00_0111111111111111, 0⟩ = .ok (.pon 32767) := by decide

/-- `OP = 14`. -/
theorem test_decode_poff : decode ⟨0b1110_0000000000_00_0000000000000111, 0⟩ = .ok (.poff 7) := by decide

/-- V60 to V66. -/
theorem test_decode_illegal :
    decode ⟨0x00000000, 0⟩ = .error .reservedOp ∧ decode ⟨0xF0000000, 0⟩ = .error .reservedOp ∧
    decode ⟨0x20000001, 0⟩ = .error .nonzeroLow ∧ decode ⟨0x50010000, 0⟩ = .error .nonzeroOrder ∧
    decode ⟨0x10040001, 0⟩ = .error .nonzeroZ ∧ decode ⟨0x60000001, 0⟩ = .error .nonzeroLow ∧
    decode ⟨0x78000000, 0⟩ = .error .nonzeroZ := by decide

/-- The encoder writes the words of section 6's examples. -/
theorem test_encode :
    encode (.config 1 1) = ⟨0x10010001, 0⟩ ∧ encode (.wrbyte 0x55 (-1)) = ⟨0x8000FFFF, 0x55⟩ ∧
    encode (.pset 3 1) = ⟨0xB0000003, 1⟩ := by decide

/-- Bits 31:0 of a table word are `CW`, the data operand's bits follow. -/
theorem test_decodeTableWord :
    decodeTableWord 32 0x40000001 = some (.rdbyte 1) ∧
    decodeTableWord 96 (0x60000000 + 0x1234 * 2 ^ 32) = some (.wrreg 0x1234) ∧
    decodeTableWord 32 0xF0000000 = none := by decide

/-! ### Well-formedness: an ill-formed term for each check (30_encoding.md R90, R102) -/

theorem test_wellFormed_index_above :
    (Instr.rdbyte 32768).wellFormed Config.reference = false ∧ (Instr.rdbyte 32767).wellFormed Config.reference = true := by
  decide

theorem test_wellFormed_index_below :
    (Instr.config (-32769) 0).wellFormed Config.reference = false ∧
    (Instr.config (-32768) 0).wellFormed Config.reference = true := by decide

theorem test_wellFormed_value :
    (Instr.wrreg (2 ^ 64)).wellFormed Config.reference = false ∧
    (Instr.wrreg (2 ^ 64 - 1)).wellFormed Config.reference = true := by decide

theorem test_wellFormed_both_operands :
    (Instr.wrbyte (2 ^ 64) 0).wellFormed Config.reference = false ∧
    (Instr.wrbit 0 40000).wellFormed Config.reference = false ∧
    (Instr.pset 40000 0).wellFormed Config.reference = false := by decide

theorem test_wellFormed_beat :
    (Beat.mk 0x60000000 (2 ^ 64)).wellFormed Config.reference = false ∧
    (Beat.mk 0x60000000 (2 ^ 64 - 1)).wellFormed Config.reference = true := by decide

/-! ### The assembler's text (30_encoding.md R102, R105, R106) -/

theorem test_parse_wrbyte :
    parseLine "WRBYTE 0x1FF, -1 ; a comment".toList = some (some (.full (.wrbyte 0x1FF (-1)))) := by decide

theorem test_parse_config :
    parseLine "CONFIG".toList = some (some .configDefault) ∧
    parseLine "CONFIG 1, REVERSE".toList = some (some (.full (.config 1 1))) ∧
    parseLine "  ; nothing".toList = some none ∧ parseLine "RDBYTE".toList = none := by decide

theorem test_assemble_lines :
    assembleLines Config.reference ["CONFIG 2, NORMAL".toList, "WRREG 0b101".toList, "WRREG".toList] =
      some [⟨0x10000002, 0⟩, ⟨0x60000000, 5⟩, ⟨0x70000000, 0⟩] := by decide

theorem test_assemble_refuses :
    assembleLines Config.reference ["RDBIT 40000".toList] = none := by decide

/-! ### One step of each command -/

/-- V3. -/
theorem test_config_reverse :
    (nextOf (exec (.config 1 1) (unconfigured (oks 5)))).map
        (fun t => (t.cfg, t.chainLen, t.bitOrder, t.shadow, t.lines)) =
      some (.configured, 1, .reverseMSBFirst, 0, ⟨false, false, false, false, true⟩) := by decide

/-- V9b: `OE=0` answered `fail`. -/
theorem test_config_cut_short :
    (nextOf (exec (.config 1 0) (unconfigured (failAt 1)))).map
        (fun t => (t.cfg, t.responses, t.events, t.lines.clr)) =
      some (.unconfigured, [⟨.hardwareFault, 0⟩], [⟨.clr, true⟩, ⟨.oe, false⟩], true) := by decide

/-- V10; and R126 with R208: after a failed drive of `LCK` a CLEAR that completes zeroes the latches too. -/
theorem test_clear :
    (nextOf (exec .clear (constructed .normalLSBFirst 1 0xA5 (oks 6)))).map
        (fun t => (t.shadow, t.latch, t.lines.oe, t.events.length)) =
      some (0, cells [0, 0, 0, 0, 0, 0, 0, 0], false, 6) ∧
    latchesAfter .clear (afterFailed .lck) = some (cells [0, 0, 0, 0, 0, 0, 0, 0]) := by decide

/-- V13: `CLR=1` answered `fail`. -/
theorem test_clear_cut_short :
    (nextOf (exec .clear (constructed .normalLSBFirst 1 0xA5 (failAt 2)))).map
        (fun t => (t.responses, t.shadow, t.lines.oe, t.out)) =
      some ([⟨.hardwareFault, 0⟩], 0xA5, true, List.replicate 8 .highZ) := by decide

/-- V20. -/
theorem test_rdreg :
    effect .rdreg (constructed .reverseMSBFirst 2 0x1234 []) = some ([⟨.ok, 0x1234⟩], 0x1234, 0) := by decide

/-- V22, V23. -/
theorem test_rdbyte :
    effect (.rdbyte 1) (constructed .normalLSBFirst 2 0x1234 []) = some ([⟨.ok, 0x12⟩], 0x1234, 0) ∧
    effect (.rdbyte 2) (constructed .normalLSBFirst 2 0x1234 []) = some ([⟨.indexError, 0⟩], 0x1234, 0) := by decide

/-- V27, V29b. -/
theorem test_rdbit :
    effect (.rdbit 9) (constructed .normalLSBFirst 2 0x1234 []) = some ([⟨.ok, 1⟩], 0x1234, 0) ∧
    effect (.rdbit (-1)) (constructed .normalLSBFirst 2 0x1234 []) = some ([⟨.indexError, 0⟩], 0x1234, 0) := by decide

/-- V30, the truncated shadow and the latches. -/
theorem test_wrreg :
    (nextOf (exec (.wrreg 0x1B4) (constructed .normalLSBFirst 1 0 (oks 28)))).map
        (fun t => (t.responses, t.shadow, t.events.length, t.latch)) =
      some ([⟨.ok, 0⟩], 0xB4, 28, cells [1, 0, 1, 1, 0, 1, 0, 0]) := by decide

/-- V48: the tenth event answered `fail`. -/
theorem test_wrreg_cut_short :
    (nextOf (exec (.wrreg 0xFF) (constructed .normalLSBFirst 1 0 (failAt 9)))).map
        (fun t => (t.responses, t.shadow, t.events.length, t.latch)) =
      some ([⟨.hardwareFault, 0⟩], 0xFF, 10, List.replicate 8 none) := by decide

/-- V31, the full event list written out under the table. -/
theorem test_refresh :
    eventsAfter .refresh (constructed .normalLSBFirst 1 0xB4 (oks 28)) =
      some ([⟨.clr, false⟩, ⟨.clr, true⟩] ++
        [⟨.ser, false⟩, ⟨.sck, true⟩, ⟨.sck, false⟩, ⟨.ser, false⟩, ⟨.sck, true⟩, ⟨.sck, false⟩] ++
        [⟨.ser, true⟩, ⟨.sck, true⟩, ⟨.sck, false⟩, ⟨.ser, false⟩, ⟨.sck, true⟩, ⟨.sck, false⟩] ++
        [⟨.ser, true⟩, ⟨.sck, true⟩, ⟨.sck, false⟩, ⟨.ser, true⟩, ⟨.sck, true⟩, ⟨.sck, false⟩] ++
        [⟨.ser, false⟩, ⟨.sck, true⟩, ⟨.sck, false⟩, ⟨.ser, true⟩, ⟨.sck, true⟩, ⟨.sck, false⟩] ++
        [⟨.lck, true⟩, ⟨.lck, false⟩]) := by decide

/-- V33: in ReverseMSBFirst bit 0 reaches no output. -/
theorem test_refresh_reverse :
    latchesAfter .refresh (constructed .reverseMSBFirst 1 0xB5 (oks 28)) = some (cells [0, 1, 0, 1, 1, 0, 1, 0]) := by
  decide

/-- V37. -/
theorem test_wrbyte :
    effect (.wrbyte 0x1FF 1) (constructed .normalLSBFirst 2 0x1234 (oks 52)) = some ([⟨.ok, 0⟩], 0xFF34, 52) ∧
    latchesAfter (.wrbyte 0x1FF 1) (constructed .normalLSBFirst 2 0x1234 (oks 52)) =
      some (cells [1, 1, 1, 1, 1, 1, 1, 1, 0, 0, 1, 1, 0, 1, 0, 0]) := by decide

/-- V41: the state operand is masked to one bit. -/
theorem test_wrbit :
    effect (.wrbit 3 0) (constructed .normalLSBFirst 2 0xFD34 (oks 52)) = some ([⟨.ok, 0⟩], 0xFD35, 52) := by decide

/-- V43. -/
theorem test_wrbit_index :
    effect (.wrbit 1 16) (constructed .normalLSBFirst 2 0xFD31 (oks 52)) = some ([⟨.indexError, 0⟩], 0xFD31, 0) := by
  decide

/-- V54, V58. -/
theorem test_pget :
    effect (.pget 3) (constructed .normalLSBFirst 1 0x09 []) = some ([⟨.ok, 1⟩], 0x09, 0) ∧
    effect (.pget 8) (constructed .normalLSBFirst 1 0x09 []) = some ([⟨.indexError, 0⟩], 0x09, 0) := by decide

/-- V57: the state 2 is masked to 0. -/
theorem test_pset :
    effect (.pset 3 2) (constructed .normalLSBFirst 1 0x08 (oks 28)) = some ([⟨.ok, 0⟩], 0, 28) := by decide

/-- V52, V53. -/
theorem test_ptgl :
    effect (.ptgl 3) (constructed .normalLSBFirst 1 0x09 (oks 28)) = some ([⟨.ok, 0⟩], 0x01, 28) ∧
    effect (.ptgl 3) (constructed .normalLSBFirst 1 0x01 (oks 28)) = some ([⟨.ok, 0⟩], 0x09, 28) := by decide

/-- V50. -/
theorem test_pon : effect (.pon 0) (constructed .normalLSBFirst 1 0 (oks 28)) = some ([⟨.ok, 0⟩], 1, 28) := by decide

/-- R254 and R70: a write that completes after a failed drive of `LCK`, or of `SCK`, reloads every latch (0xA7). -/
theorem test_pon_after_fault :
    latchesAfter (.pon 1) (afterFailed .lck) = some (cells [1, 0, 1, 0, 0, 1, 1, 1]) ∧
    latchesAfter (.pon 1) (afterFailed .sck) = some (cells [1, 0, 1, 0, 0, 1, 1, 1]) := by decide

/-- V55. -/
theorem test_poff : effect (.poff 0) (constructed .normalLSBFirst 1 0x09 (oks 28)) = some ([⟨.ok, 0⟩], 0x08, 28) := by
  decide

/-- V29e: while UNCONFIGURED the state is checked before the index. -/
theorem test_illegal_state_first :
    effect (.rdbit (-1)) (unconfigured []) = some ([⟨.illegalState, 0⟩], 0, 0) := by decide

/-- The first instruction after reset, placed by `withFetchWord`, is the one that runs. -/
theorem test_withFetchWord :
    (nextOf (step (State.reset.withFetchWord 32 0x30000000))).map State.responses = some [⟨.illegalState, 0⟩] ∧
    (nextOf (step (State.reset.withFetchWord 32 0x10000000))).map State.responses =
      some [⟨.configurationError, 0⟩] := by decide

/-- The latches of P1's end state (the shadow 0x1234): part 0 shows 0x12 and part 1 shows 0x34, most significant bit on Q0. -/
theorem test_pin_map :
    (nextOf (exec (.wrbyte 0x34 0) (constructed .normalLSBFirst 2 0x1200 (oks 52)))).map
        (fun t => (t.out[pinIndex 0 3]?, t.out[pinIndex 0 4]?, t.out[pinIndex 1 2]?, t.out[pinIndex 1 7]?)) =
      some (some (.level true), some (.level false), some (.level true), some (.level false)) := by decide

/-- The numbers of R99's table, with `RD` on the 64 bits of the port. -/
theorem test_response_bits :
    Response.bits Config.reference ⟨.illegalCommand, 0⟩ = (5, 0) ∧
    Response.bits Config.reference ⟨.ok, 0x34⟩ = (0, 0x34) := by decide

/-! ### Witnesses: for each obligation, a state and operands that meet all its hypotheses together -/

/-- A controller with the host move `m` to take. -/
def withMove (m : HostMove) (s : State) : State := s.setHost [m]

theorem witness_DecodeOfEncode :
    (Instr.config (-32768) 3).wellFormed Config.reference = true ∧
    (Instr.pset 32767 (2 ^ 64 - 1)).wellFormed Config.reference = true := by decide

theorem witness_EncodeOfDecode :
    (Beat.mk 0x8000FFFF (2 ^ 64 - 1)).wellFormed Config.reference = true ∧
    decode ⟨0x8000FFFF, 2 ^ 64 - 1⟩ = .ok (.wrbyte (2 ^ 64 - 1) (-1)) := by decide

/-- A word that spells a row, and one that spells none. -/
theorem witness_DecodeFollowsOpcodeMap :
    (⟨"CONFIG", 0x10000000, 0xFFFC0000⟩ : OpcodeRow) ∈ opcodeTable ∧
    (⟨"CONFIG", 0x10000000, 0xFFFC0000⟩ : OpcodeRow).Matches 0x1003FFFF ∧
    ∀ r ∈ opcodeTable, ¬ r.Matches 0x10040000 := by decide

/-- One word for each ground of illegality, the last bit of each field. -/
theorem witness_IllegalEncodings :
    (∀ w ∈ [0x0FFFFFFF, 0xF0000000, 0x18000000, 0x10040000, 0xE0020000, 0x20008000, 0x30000001, 0x60000001, 0x70000001],
      ∃ e ∈ [Illegal.reservedOp, .nonzeroZ, .nonzeroOrder, .nonzeroLow], decode ⟨BitVec.ofNat 32 w, 0⟩ = .error e) := by
  decide

/-- Each ground of refusal at its boundary: an index or length just outside 16 bits, a value just outside `DATA_W` bits. -/
theorem witness_AssemblerForms :
    encodedIndex (.config 32768 0) = some 32768 ∧ encodedIndex (.poff (-32769)) = some (-32769) ∧
    encodedIndex (.wrbit 0 32767) = some 32767 ∧
    encodedValue (.wrbyte (2 ^ 64) 0) = some (2 ^ Config.reference.dataW) ∧
    encodedValue (.pset 0 (2 ^ 64 - 1)) = some (2 ^ Config.reference.dataW - 1) ∧
    assemble Config.reference (.full (.wrreg 5)) = some ⟨0x60000000, 5⟩ := by decide

theorem witness_StepRunsDecodedCommand :
    (withMove (.beat ⟨0x30000000, 0⟩) (ready 5)).seq = .idle ∧
    (withMove (.beat ⟨0x30000000, 0⟩) (ready 5)).params.level = .command ∧
    (withMove (.beat ⟨0x30000000, 0⟩) (ready 5)).host = [.beat ⟨0x30000000, 0⟩] ∧
    decode ⟨0x30000000, 0⟩ = .ok .rdreg := by decide

theorem witness_StepAnswersIllegalCommand :
    (withMove (.beat ⟨0, 0⟩) (ready 5)).seq = .idle ∧
    (withMove (.beat ⟨0, 0⟩) (ready 5)).host = [.beat ⟨0, 0⟩] ∧
    ∀ r ∈ opcodeTable, ¬ r.Matches 0 := by decide

theorem witness_HostResetUnconfigures :
    (withMove .reset (ready 5)).seq = .idle ∧ (withMove .reset (ready 5)).host = [.reset] := by decide

theorem witness_StepNeverStops : (ready 5).seq = .idle ∧ (ready 5).host = [] := by decide

/-- A busy controller before its first event, one whose next event fails, and one past its last event. -/
theorem witness_BusyTakesNoBeat :
    ((nextOf (step ((ready 5).setSeq (.busy .clear 0)))).map State.seq = some (.busy .clear 1)) ∧
    ((nextOf (step ((failing 0).setSeq (.busy .clear 2)))).map State.seq = some .idle) ∧
    ((nextOf (step ((ready 5).setSeq (.busy .clear 6)))).map State.seq = some .idle) := by decide

theorem witness_ResetState : ∀ len order, Instr.poff 0 ≠ .config len order := by
  intro len order h
  cases h

/-- The smallest and the largest instance R11 allows. -/
theorem witness_InvHoldsAtReset :
    (Params.mk 1 8 1 true .command).Ok ∧ (Params.mk 4096 32768 1 false .sequencer).Ok := by decide

theorem ready_inv : (ready 0xFF).Inv := by
  refine ⟨by decide, by decide, by decide, by decide, ?_, ?_, trivial⟩ <;> intro x hx <;> cases hx

/-- A state with all clocks at rest meets the clock invariant, idle or busy with a command that waits for a configured
controller. -/
theorem clocksInv_of_rest {s : State} (h : ∀ l v, restLevel l = some v → s.lines.get l = v)
    (hq : ∀ len order k, s.seq ≠ .busy (.config len order) k) : s.ClocksInv := by
  refine ⟨fun _ l v hl _ => .inl (h l v hl), ?_⟩
  split
  · exact absurd ‹_› (hq _ _ _)
  · trivial

theorem ready_rest (v : Nat) : ∀ l x, restLevel l = some x → (ready v).lines.get l = x := by
  intro l x h
  cases l <;> cases h <;> rfl

theorem ready_clocksInv (v : Nat) : (ready v).ClocksInv :=
  clocksInv_of_rest (ready_rest v) (fun _ _ _ h => by cases h)

/-- An idle and a busy state that meet both invariants; every state steps. -/
theorem witness_StepKeepsInv :
    (ready 0xFF).Inv ∧ (ready 0xFF).ClocksInv ∧ ((ready 0xFF).setSeq (.busy (.pon 7) 28)).Inv ∧
    ((ready 0xFF).setSeq (.busy (.pon 7) 28)).ClocksInv ∧
    (nextOf (step ((ready 0xFF).setSeq (.busy (.pon 7) 28)))).isSome := by
  obtain ⟨h1, h2, h3, h4, h5, h6, -⟩ := ready_inv
  exact ⟨ready_inv, ready_clocksInv _, ⟨h1, h2, h3, h4, h5, h6, by decide, by decide⟩,
    clocksInv_of_rest (ready_rest 0xFF) (fun _ _ _ h => by cases h), by decide⟩

/-- In the middle of a pulse (the next event is `LCK=0`) the invariant holds with `LCK` at 1. -/
theorem witness_StepKeepsInv_in_pulse :
    (((ready 0xFF).eventOk ⟨.lck, true⟩).setSeq (.busy .refresh 27)).ClocksInv := by
  refine ⟨fun _ l v hl _ => ?_, trivial⟩
  cases l <;> cases hl
  · exact .inl rfl
  · exact .inr (by decide)
  · exact .inl rfl

theorem witness_OnlyResetUndoesConstruction :
    (ready 0xFF).Inv ∧ (ready 0xFF).cfg = .configured ∧ (∀ rest, (ready 0xFF).host ≠ .reset :: rest) ∧
    (nextOf (step (ready 0xFF))).isSome := by
  refine ⟨ready_inv, rfl, ?_, rfl⟩
  intro rest h
  cases h

/-- A construction that completes, one that is cut short, and a command that is refused. -/
theorem witness_UnconfiguredRegistersAreNeverRead :
    (unconfigured (oks 5)).cfg = .unconfigured ∧
    (nextOf (exec (.config 1 0) (unconfigured (oks 5)))).map State.cfg = some .configured ∧
    (nextOf (exec (.config 1 0) (unconfigured (failAt 0)))).map State.cfg = some .unconfigured ∧
    (nextOf (exec .rdreg (unconfigured (oks 5)))).map State.cfg = some .unconfigured := by decide

theorem witness_ChainIsNeverRead :
    (nextOf (step (withMove (.beat ⟨0x70000000, 0⟩) (ready 5)))).isSome := by decide

/-- The two lengths at the ends of the range, the two orders. -/
theorem witness_ConfigCompletes :
    (unconfigured (oks 5)).cfg = .unconfigured ∧ (8 : Int) ≤ (unconfigured (oks 5)).params.nMax ∧
    (1 : Int) ≤ (unconfigured (oks 5)).params.nMax ∧ AllOk (unconfigured (oks 5)) 5 := by decide

theorem witness_ConfigWhenConfiguredRefused : (ready 0).cfg = .configured := by decide

/-- Each cause at the boundary: length 0, an order 2 and 3, length `N_MAX + 1`. -/
theorem witness_ConfigurationErrorCauses :
    (unconfigured []).cfg = .unconfigured ∧ ((unconfigured []).params.nMax : Int) < 9 ∧
    effect (.config 0 0) (unconfigured []) = some ([⟨.configurationError, 0⟩], 0, 0) ∧
    effect (.config 8 2) (unconfigured []) = some ([⟨.configurationError, 0⟩], 0, 0) ∧
    effect (.config 1 3) (unconfigured []) = some ([⟨.configurationError, 0⟩], 0, 0) ∧
    effect (.config 9 1) (unconfigured []) = some ([⟨.configurationError, 0⟩], 0, 0) := by decide

theorem witness_ConfigCutShort :
    (unconfigured (failAt 0)).cfg = .unconfigured ∧ (8 : Int) ≤ (unconfigured (failAt 0)).params.nMax ∧
    FirstFail (unconfigured (failAt 0)) 5 0 ∧ FirstFail (unconfigured (failAt 4)) 5 4 := by decide

theorem witness_ClearCompletes : (ready 0xA5).cfg = .configured ∧ AllOk (ready 0xA5) 6 := by decide

/-- A controller whose `LCK` is at 0, and one whose `LCK` a failed drive left unspecified. -/
theorem witness_ClearZeroesChain :
    (ready 0xA5).cfg = .configured ∧ AllOk (ready 0xA5) 6 ∧ (ready 0xA5).lines.lck = false ∧
    ((afterFailed .lck).cfg = .configured ∧ AllOk (afterFailed .lck) 6 ∧ (afterFailed .lck).specified.lck = false) := by decide

theorem witness_ClearHidesOutputs : AllOk (ready 0xA5) 1 ∧ AllOk (ready 0xA5) 5 := by decide

/-- Cut short at the first, the second, the fifth and the last event. -/
theorem witness_ClearCutShort :
    (failing 0).cfg = .configured ∧ FirstFail (failing 0) 6 0 ∧ FirstFail (failing 1) 6 1 ∧
    FirstFail (failing 4) 6 4 ∧ FirstFail (failing 5) 6 5 := by decide

theorem witness_IllegalStateRefusals :
    (ready 0).cfg = .configured ∧ (unconfigured []).cfg = .unconfigured ∧
    (∀ len order, Instr.clear ≠ .config len order) := by
  refine ⟨rfl, rfl, ?_⟩
  intro len order h
  cases h

/-- Indices at both ends of the range and just outside it. -/
theorem witness_IndexErrors :
    (ready 0).cfg = .configured ∧ indexAndCapacity (.rdbyte 1) (ready 0) = some (1, 1) ∧
    indexAndCapacity (.wrbyte 7 0) (ready 0) = some (0, 1) ∧ indexAndCapacity (.ptgl (-1)) (ready 0) = some (-1, 8) ∧
    indexAndCapacity (.pon 7) (ready 0) = some (7, 8) ∧ indexAndCapacity (.rdbit 8) (ready 0) = some (8, 8) := by
  decide

/-- A command that answers each of the codes `exec` gives, in the required CFG_STATE and in the other; a datum at the
port's last value. -/
theorem witness_CodesOfEachCommand :
    (ready 0).cfg = requiredCfg (.pon 7) ∧ (unconfigured []).cfg ≠ requiredCfg (.pon 7) ∧
    RespCode.indexError ∈ possibleCodes (.pon 7) ∧ 2 ^ 64 - 1 < 2 ^ Config.reference.dataW ∧
    effect (.pon 7) (ready 0) = some ([⟨.ok, 0⟩], 0x80, 28) ∧
    effect (.pon 7) (failing 27) = some ([⟨.hardwareFault, 0⟩], 0xDA, 28) ∧
    effect (.pon 8) (ready 0) = some ([⟨.indexError, 0⟩], 0, 0) ∧
    effect (.pon 7) (unconfigured []) = some ([⟨.illegalState, 0⟩], 0, 0) := by decide

/-- The clauses of the statement on error responses: a precise one and a HardwareFault. -/
theorem witness_ErrorsArePrecise :
    effect (.rdbyte (-1)) (ready 3) = some ([⟨.indexError, 0⟩], 3, 0) ∧
    effect .refresh (failing 0) = some ([⟨.hardwareFault, 0⟩], 0x5A, 1) := by decide

/-- Line faults off: a script that would fail changes nothing. -/
theorem witness_NoHardwareFaultWithoutLineFaults :
    effect .clear { failing 0 with params := { (failing 0).params with lineFaults := false } } =
      some ([⟨.ok, 0⟩], 0, 6) := by decide

theorem witness_RdregAnswersShadow : (ready 0xFF).cfg = .configured := by decide

/-- The first and the last byte. -/
theorem witness_RdbyteAnswersByte :
    (constructed .normalLSBFirst 2 0x1234 []).cfg = .configured ∧
    0 < (constructed .normalLSBFirst 2 0x1234 []).chainLen ∧
    1 < (constructed .normalLSBFirst 2 0x1234 []).chainLen := by decide

/-- The first and the last bit. -/
theorem witness_RdbitAndPgetAnswerBit :
    (ready 0x80).cfg = .configured ∧ 0 < 8 * (ready 0x80).chainLen ∧ 7 < 8 * (ready 0x80).chainLen := by decide

/-- Two states that differ in BIT_ORDER, lines and responses only; an index in range and one outside it. -/
theorem witness_ReadsAreOfTheShadow :
    isRead (.rdbit 7) = true ∧ isRead (.pget (-1)) = true ∧ (failing 0).cfg = (ready 0x5A).cfg ∧
    (failing 0).chainLen = (ready 0x5A).chainLen ∧ (failing 0).shadow = (ready 0x5A).shadow ∧
    (failing 0).bitOrder ≠ (ready 0x5A).bitOrder := by decide

/-- The first bit, the last bit of the first byte and the first of the second, the last bit. -/
theorem witness_BitLiesInByte :
    (constructed .normalLSBFirst 2 0x1234 []).cfg = .configured ∧
    ∀ b ∈ [0, 7, 8, 15], b < 8 * (constructed .normalLSBFirst 2 0x1234 []).chainLen := by decide

theorem witness_MergeOneBit :
    7 < (ready 0xFF).width ∧ 1 < 2 ∧ (ready 0xFF).shadow < 2 ^ (ready 0xFF).width := by decide

theorem witness_MergeOneByte :
    0 < (ready 0xFF).chainLen ∧ 255 < 256 ∧ (ready 0xFF).shadow < 2 ^ (ready 0xFF).width := by decide

/-- Two shadows that differ only in bit 0. -/
theorem witness_SerialBitSequence :
    0xB5 < 2 ^ (8 * 1) ∧ ∀ j, j ≠ 0 → Nat.testBit 0xB5 j = Nat.testBit 0xB4 j := by
  refine ⟨by decide, fun j hj => ?_⟩
  obtain ⟨k, rfl⟩ := Nat.exists_eq_succ_of_ne_zero hj
  simp [Nat.testBit_succ]

/-- The phases at the ends of each range of counts. -/
theorem witness_SequencerPhases :
    phaseAt 8 0 = .preClearFirst ∧ phaseAt 8 1 = .preClearSecond ∧ phaseAt 8 2 = .bitData 0 ∧
    phaseAt 8 25 = .bitClockDown 7 ∧ phaseAt 8 26 = .latchUp ∧ phaseAt 8 27 = .latchDown ∧
    phaseAt 8 28 = .done ∧ 28 ≤ 4 + 3 * (8 * 1) := by decide

/-- For WrregWrites, RefreshShiftsOut, WrbyteWrites, WrbitAndPsetWrite, PtglToggles and PonAndPoffWrite: a configured
controller whose events all succeed, one whose first event fails, one whose last does; the last byte and bit in range; the
shadow in range. -/
theorem witness_writes :
    (ready 0xFF).cfg = .configured ∧ AllOk (ready 0xFF) (24 * (ready 0xFF).chainLen + 4) ∧
    (failing 0).cfg = .configured ∧ FirstFail (failing 0) (24 * (failing 0).chainLen + 4) 0 ∧
    FirstFail (failing 27) (24 * (failing 27).chainLen + 4) 27 ∧
    0 < (ready 0xFF).chainLen ∧ 7 < 8 * (ready 0xFF).chainLen ∧
    (ready 0xFF).shadow < 2 ^ (8 * (ready 0xFF).chainLen) ∧
    (failing 27).shadow < 2 ^ (8 * (failing 27).chainLen) := by decide

/-- Two different write commands that complete in states that agree on what R163 names. -/
theorem witness_WriteEventsDependOnShadowOnly :
    isWrite (.wrreg 0x80) = true ∧ isWrite (.pon 7) = true ∧
    effect (.wrreg 0x80) (ready 0x12) = some ([⟨.ok, 0⟩], 0x80, 28) ∧
    effect (.pon 7) (ready 0) = some ([⟨.ok, 0⟩], 0x80, 28) ∧
    (ready 0x12).chainLen = (ready 0).chainLen ∧ (ready 0x12).bitOrder = (ready 0).bitOrder := by decide

/-- A command that completes, one that ends with another error, and a beat that spells none. -/
theorem witness_EventCounts :
    effect .clear (ready 0xA5) = some ([⟨.ok, 0⟩], 0, 6) ∧
    effect (.pset 8 1) (ready 0xA5) = some ([⟨.indexError, 0⟩], 0xA5, 0) ∧
    decode ⟨0x60000001, 0⟩ = .error .nonzeroLow := by decide

theorem witness_PulsesEndBeforeResponse :
    (ready 0xFF).Inv ∧ Quiet (ready 0xFF).lines ∧ isWrite .refresh = true ∧ (ready 0xFF).seq = .idle ∧
    (ready 0xFF).ClocksInv ∧ (ready 0xFF).cfg = .configured ∧
    effect .refresh (ready 0xFF) = some ([⟨.ok, 0⟩], 0xFF, 28) :=
  ⟨ready_inv, by decide, by decide, rfl, ready_clocksInv _, rfl, by decide⟩

theorem witness_TruncationAndByteLaw :
    (ready 0).cfg = .configured ∧ AllOk (ready 0) (24 * (ready 0).chainLen + 4) ∧ 0 < (ready 0).chainLen := by decide

/-- Two toggles of the last bit that complete. -/
theorem witness_ToggleTwiceRestores :
    (ready 0x7F).shadow < 2 ^ (8 * (ready 0x7F).chainLen) ∧
    effect (.ptgl 7) (ready 0x7F) = some ([⟨.ok, 0⟩], 0xFF, 28) ∧
    ((nextOf (exec (.ptgl 7) (ready 0x7F))).bind fun t => (nextOf (exec (.ptgl 7) t)).map State.responses) =
      some [⟨.ok, 0⟩, ⟨.ok, 0⟩] := by decide

/-- The three clauses: two writes of the last bit, one write of a bit, one write of a byte, all completed. -/
theorem witness_NoCrossBitCorruption :
    (ready 0x55).shadow < 2 ^ (8 * (ready 0x55).chainLen) ∧
    effect (.wrbit 1 7) (ready 0x55) = some ([⟨.ok, 0⟩], 0xD5, 28) ∧
    ((nextOf (exec (.wrbit 1 7) (ready 0x55))).bind fun t => (nextOf (exec (.wrbit 0 7) t)).map State.responses) =
      some [⟨.ok, 0⟩, ⟨.ok, 0⟩] ∧
    effect (.wrbyte 0x1AA 0) (ready 0x55) = some ([⟨.ok, 0⟩], 0xAA, 28) := by decide

/-- A state for each clause: clocks low and clear high, outputs enabled; clear low; a clock of unspecified level; and
outputs disabled. -/
theorem witness_ChainReactions :
    (((ready 0).eventOk ⟨.clr, false⟩).lines.clr = false ∧ ((ready 0).eventOk ⟨.clr, false⟩).lines.sck = false) ∧
    (afterFailed .lck).specified.lck = false ∧
    (ready 0).lines.sck = false ∧ (ready 0).lines.clr = true ∧ 7 < (ready 0).stage.length ∧
    (ready 0).lines.lck = false ∧ (ready 0).lines.oe = false ∧
    ((ready 0).eventOk ⟨.oe, true⟩).lines.oe = true ∧ ((ready 0).eventOk ⟨.oe, true⟩).out ≠ [] := by decide

/-- Same-level events: the lines already at the level. -/
theorem witness_EventsWithoutChainEffect :
    ((ready 0).eventOk ⟨.sck, true⟩).specified.sck = true ∧ ((ready 0).eventOk ⟨.sck, true⟩).lines.sck = true ∧
    ((ready 0).eventOk ⟨.lck, true⟩).specified.lck = true ∧ ((ready 0).eventOk ⟨.lck, true⟩).lines.lck = true := by decide

/-- Also for WriteLeavesInSync: clocks at 0, and `LCK` left unspecified by a failed drive. -/
theorem witness_ChainAfterShiftOut :
    isWrite (.wrbyte 0x12 0) = true ∧ ClocksReady (ready 0) ∧ (ready 0).lines.oe = false ∧
    effect (.wrbyte 0x12 0) (ready 0) = some ([⟨.ok, 0⟩], 0x12, 28) ∧
    ClocksReady (afterFailed .lck) ∧ (afterFailed .lck).lines.oe = false ∧
    effect (.wrbyte 0x12 0) (afterFailed .lck) = some ([⟨.ok, 0⟩], 0x12, 29) := by
  refine ⟨rfl, by decide, rfl, by decide, ⟨fun _ => rfl, fun h => ?_⟩, rfl, by decide⟩
  cases h

/-- The first, the last but one and the last stage of a byte. -/
theorem witness_ShadowBitOnEachStage :
    (0 < 8 ∧ 6 < 8 ∧ 7 < 8) ∧ shiftedOutCell .reverseMSBFirst 8 0xB5 7 = some false ∧
    shiftedOutCell .reverseMSBFirst 8 0xB5 6 = some true := by decide

/-- Just before the latch event, at it, and at the end. -/
theorem witness_NoPartialPattern :
    (ready 0).lines.lck = false ∧ (afterFailed .lck).specified.lck = false ∧ AllOk (ready 0) 28 ∧ 26 ≤ 2 + 3 * (8 * 1) ∧ 2 + 3 * (8 * 1) < 27 ∧
    28 ≤ 4 + 3 * (8 * 1) := by decide

/-- A write, and an illegal word. -/
theorem witness_SequencerRefinesCommand :
    (withMove (.beat ⟨0xD0000007, 0⟩) (ready 0)).seq = .idle ∧
    (withMove (.beat ⟨0xD0000007, 0⟩) (ready 0)).params.level = .command ∧
    (withMove (.beat ⟨0xD0000007, 0⟩) (ready 0)).host = [.beat ⟨0xD0000007, 0⟩] ∧
    (nextOf (step (withMove (.beat ⟨0xD0000007, 0⟩) (ready 0)))).isSome ∧
    (nextOf (step (withMove (.beat ⟨0, 0⟩) (ready 0)))).isSome := by decide

end Sys2Proof.Machine.Tests
end

section
/-! SUPPORT. One step of the machine case by case, what a command leaves of its surroundings, and the run of a busy
sequencer to its response (spec/00_scope.md R7, spec/10_state.md R33). -/

namespace Sys2Proof.Machine

/-! ### The step, case by case (spec/70_reset_and_hazards.md R262) -/

/-- An idle controller that finds a beat takes it, off the host's list. -/
theorem step_of_beat {s : State} {b : Beat} {rest : List HostMove} (hq : s.seq = .idle)
    (hh : s.host = .beat b :: rest) : step s = takeBeat b (s.setHost rest) := by
  simp only [step, stepOnce, hq, hh]

/-- A busy controller goes on with its command (30_encoding.md R107). -/
theorem step_of_busy {s : State} {i : Instr} {k : Nat} (hq : s.seq = .busy i k) :
    step s = .next (seqAdvance i k s) := by
  simp only [step, stepOnce, hq]

/-- An illegal beat is answered at either level of description (60_exceptions.md R205). -/
theorem takeBeat_of_illegal {b : Beat} {e : Illegal} (hd : decode b = .error e) (s : State) :
    takeBeat b s = .next (s.raise .illegalCommand) := by
  simp only [takeBeat, hd]

/-- At command level a legal beat is executed whole. -/
theorem takeBeat_of_command {b : Beat} {i : Instr} {s : State} (hd : decode b = .ok i)
    (hl : s.params.level = .command) : takeBeat b s = exec i s := by
  simp only [takeBeat, hd, hl]

/-- At sequencer level a legal beat is only begun. -/
theorem takeBeat_of_sequencer {b : Beat} {i : Instr} {s : State} (hd : decode b = .ok i)
    (hl : s.params.level = .sequencer) : takeBeat b s = .next (seqAccept i s) := by
  simp only [takeBeat, hd, hl]

/-! ### The frame of a command -/

/-- The before-events writes leave the surroundings. -/
theorem beforeEvents_sameSurroundings (i : Instr) (s : State) : SameSurroundings s (beforeEvents i s) := by
  obtain ⟨v, hb⟩ := beforeEvents_eq i s
  rw [hb]
  exact ⟨rfl, rfl, rfl⟩

/-- No command writes the parameters, the sequencer position or the host's moves, however it ends. -/
theorem exec_sameSurroundings {i : Instr} {s t : State} (h : exec i s = .next t) : SameSurroundings s t := by
  have hb := beforeEvents_sameSurroundings i s
  rcases exec_cases i s with ⟨e, -, -, hx⟩ | ⟨-, u, rfl, -, hx⟩ | ⟨-, u, j, e, rfl, -, -, hx⟩ <;>
    obtain rfl := Host.Outcome.next.inj (hx.symm.trans h)
  · exact ⟨rfl, rfl, rfl⟩
  · obtain ⟨hp, hq, hh, -⟩ :=
      afterEvents_same i (applied (eventsOf i (beforeEvents i s)) (beforeEvents i s))
    simpa [SameSurroundings, hp, hq, hh] using hb
  · simpa [SameSurroundings] using hb

/-! ### Runs -/

/-- The machine run from `s` comes to `t` after some number of steps. -/
def Reaches (s t : State) : Prop := ∃ n, core.run n s = .next t

theorem Reaches.refl (s : State) : Reaches s s := ⟨0, rfl⟩

theorem Reaches.head {s u t : State} (h : step s = .next u) : Reaches u t → Reaches s t := by
  rintro ⟨n, hn⟩
  have hs : core.step s = .next u := h
  exact ⟨n + 1, by simpa only [Host.Core.run, hs] using hn⟩

/-! ### The state at another level and sequencer position

No check, write or event of a command reads the level of description or the sequencer position, so each commutes with
setting the two. -/

/-- `s` at the level of description `l`, with the sequencer at `q`. -/
def State.recast (s : State) (l : Granularity) (q : Sequencer) : State :=
  { s with params := { s.params with level := l }, seq := q }

section Recast

variable (s : State) (l : Granularity) (q : Sequencer)

@[simp] theorem State.recast_setSeq (q' : Sequencer) : (s.recast l q).setSeq q' = s.recast l q' := rfl
@[simp] theorem State.recast_respond (c : RespCode) (d : Nat) :
    (s.recast l q).respond c d = (s.respond c d).recast l q := rfl
@[simp] theorem State.recast_raise (e : CmdError) : (s.recast l q).raise e = (s.raise e).recast l q := rfl
@[simp] theorem State.recast_eventOk (e : LineEvent) :
    (s.recast l q).eventOk e = (s.eventOk e).recast l q := rfl
@[simp] theorem State.recast_eventFail (e : LineEvent) :
    (s.recast l q).eventFail e = (s.eventFail e).recast l q := rfl
@[simp] theorem State.recast_answerAt (j : Nat) : (s.recast l q).answerAt j = s.answerAt j := rfl

@[simp] theorem checkVerdict_recast (i : Instr) : checkVerdict i (s.recast l q) = checkVerdict i s := by
  cases i <;> rfl

@[simp] theorem beforeEvents_recast (i : Instr) :
    beforeEvents i (s.recast l q) = (beforeEvents i s).recast l q := by
  cases i <;> rfl

@[simp] theorem eventsOf_recast (i : Instr) : eventsOf i (s.recast l q) = eventsOf i s :=
  eventsOf_congr i rfl rfl rfl

@[simp] theorem afterEvents_recast (i : Instr) :
    afterEvents i (s.recast l q) = (afterEvents i s).recast l q := by
  cases i <;> rfl

@[simp] theorem datumOf_recast (i : Instr) : datumOf i (s.recast l q) = datumOf i s := by
  cases i <;> rfl

@[simp] theorem seqFinish_recast (i : Instr) :
    seqFinish i (s.recast l q) = ((afterEvents i s).respond .ok (datumOf i s)).recast l .idle := by
  simp [seqFinish]

end Recast

/-- A state at an unchanged sequencer position is only moved to the level. -/
theorem State.recast_of_seq {s : State} {q : Sequencer} (hq : s.seq = q) (l : Granularity) :
    s.recast l q = { s with params := { s.params with level := l } } := by
  subst hq; rfl

/-! ### The sequencer runs a command to its response -/

/-- The datum of a response is computed from the shadow only, which no event writes. -/
@[simp] theorem datumOf_eventOk (i : Instr) (s : State) (e : LineEvent) :
    datumOf i (s.eventOk e) = datumOf i s := by
  cases i <;> rfl

@[simp] theorem eventsOf_eventOk (i : Instr) (s : State) (e : LineEvent) :
    eventsOf i (s.eventOk e) = eventsOf i s :=
  eventsOf_congr i rfl rfl rfl

theorem driveThen_cons_of_ok {e : LineEvent} {s : State} (h : s.answerAt 0 = .ok) (es : List LineEvent)
    (after : State → State) (d : Nat) : driveThen (e :: es) after d s = driveThen es after d (s.eventOk e) := by
  simp only [driveThen, emit, h]

theorem driveThen_cons_of_fail {e : LineEvent} {s : State} (h : s.answerAt 0 = .fail) (es : List LineEvent)
    (after : State → State) (d : Nat) :
    driveThen (e :: es) after d s = (s.eventFail e).raise .hardwareFault := by
  simp only [driveThen, emit, h]

/-- From position `k` of a command, the sequencer emits the events `es` still to come one a step and ends where
emitting them all at once ends. By induction on `es`: each event answered `ok` moves the position on by one. -/
theorem busy_reaches_driveThen (i : Instr) {es : List LineEvent} {k : Nat} {s : State}
    (h : (eventsOf i s).drop k = es) (l : Granularity) :
    Reaches (s.recast l (.busy i k)) ((driveThen es (afterEvents i) (datumOf i s) s).recast l .idle) := by
  induction es generalizing k s with
  | nil =>
    have hnext : (eventsOf i s)[k]? = none := List.getElem?_eq_none (List.drop_eq_nil_iff.1 h)
    refine .head (step_of_busy rfl) ?_
    simpa [seqAdvance, hnext] using Reaches.refl _
  | cons e es ih =>
    have hnext : (eventsOf i s)[k]? = some e := by
      have := congrArg (·[0]?) h
      simpa using this
    have hrest : (eventsOf i s).drop (k + 1) = es := by
      rw [← List.tail_drop, h, List.tail_cons]
    refine .head (step_of_busy rfl) ?_
    cases ha : s.answerAt 0 with
    | ok =>
      rw [driveThen_cons_of_ok ha]
      simpa [seqAdvance, hnext, ha] using ih (k := k + 1) (s := s.eventOk e) (by simpa using hrest)
    | fail =>
      rw [driveThen_cons_of_fail ha]
      simpa [seqAdvance, hnext, ha] using Reaches.refl _

/-- A command accepted by the sequencer ends where R33's tables, run in one go, end: refused by its checks, finished at
once when it has no event, or run event by event. -/
theorem seqAccept_reaches_runByTables (i : Instr) (s : State) (l : Granularity) (q : Sequencer) :
    Reaches (seqAccept i (s.recast l q)) ((runByTables i s).recast l .idle) := by
  cases hv : checkVerdict i s with
  | some e => simpa [seqAccept, runByTables, hv] using Reaches.refl _
  | none =>
    cases hes : eventsOf i (beforeEvents i s) with
    | nil => simpa [seqAccept, runByTables, hv, hes] using Reaches.refl _
    | cons e es =>
      have hrun := busy_reaches_driveThen i (k := 0) hes l
      simpa [seqAccept, runByTables, hv, hes] using hrun

/-- Settles O60: an illegal beat is answered in one step at either level, and a legal one is begun and then run event by
event to the state of `exec`. -/
theorem sequencerRefinesCommand : Obligations.SequencerRefinesCommand := by
  intro s t b rest hq hl hh hstep
  show Reaches _ _
  have hseq : step (s.recast .sequencer .idle) = takeBeat b ((s.setHost rest).recast .sequencer .idle) :=
    step_of_beat rfl hh
  rw [step_of_beat hq hh] at hstep
  rw [← State.recast_of_seq hq]
  cases hd : decode b with
  | error e =>
    rw [takeBeat_of_illegal hd] at hstep hseq
    obtain rfl := Host.Outcome.next.inj hstep
    rw [← State.recast_of_seq (show ((s.setHost rest).raise .illegalCommand).seq = .idle from hq)]
    exact .head hseq (.refl _)
  | ok i =>
    rw [takeBeat_of_command (s := s.setHost rest) hd hl] at hstep
    rw [takeBeat_of_sequencer hd rfl] at hseq
    obtain ⟨-, htq, -⟩ := exec_sameSurroundings hstep
    rw [← State.recast_of_seq (htq.trans hq)]
    rw [exec_eq_runByTables] at hstep
    obtain rfl := Host.Outcome.next.inj hstep
    exact .head hseq (seqAccept_reaches_runByTables i _ _ _)

/-- Settles O7: an idle controller takes the beat, and at command level a taken legal beat is executed. -/
theorem stepRunsDecodedCommand : Obligations.StepRunsDecodedCommand := by
  intro s b rest i hq hl hh hd
  rw [step_of_beat hq hh]
  exact takeBeat_of_command hd hl

/-! ### The invariants at reset -/

/-- The registers hold allowed values right after reset: unconfigured, undefined cells for every part, nothing sent. -/
theorem resetOf_inv {p : Params} (hp : p.Ok) : (State.resetOf p).Inv := by
  refine ⟨hp, fun h => ?_, ?_, ?_, fun m hm => ?_, fun r hr => ?_, trivial⟩
  · cases h
  · exact List.length_replicate
  · exact List.length_replicate
  · cases hm
  · cases hr

/-- An unconfigured controller owes the clock lines nothing, and no CONFIG is on its way. -/
theorem resetOf_clocksInv (p : Params) : (State.resetOf p).ClocksInv := by
  refine ⟨fun h => ?_, trivial⟩
  cases h

/-- Settles O13; the reference parameters are among those the spec allows. -/
theorem invHoldsAtReset : Obligations.InvHoldsAtReset :=
  have href : Config.reference.Ok := by decide
  ⟨fun _ hp => ⟨resetOf_inv hp, resetOf_clocksInv _⟩, resetOf_inv href, resetOf_clocksInv _⟩

end Sys2Proof.Machine
end

section
/-! SUPPORT. What one step can be, said once for the whole machine, for the sequencer's acceptance of a command and for
its advance by one event (spec/70_reset_and_hazards.md R262, spec/10_state.md R33). -/

namespace Sys2Proof.Machine

/-- The cases of a step from `s` to `t`: what the controller finds, and where it then goes. -/
inductive StepCase (s : State) : State → Prop
  | stays (hq : s.seq = .idle) (hh : s.host = []) : StepCase s s
  | resets {rest : List HostMove} (hq : s.seq = .idle) (hh : s.host = .reset :: rest) :
      StepCase s (s.setHost rest).hardwareReset
  | rejects {b : Beat} {rest : List HostMove} {e : Illegal} (hq : s.seq = .idle) (hh : s.host = .beat b :: rest)
      (hd : decode b = .error e) : StepCase s ((s.setHost rest).raise .illegalCommand)
  | executes {b : Beat} {rest : List HostMove} {i : Instr} {t : State} (hq : s.seq = .idle)
      (hh : s.host = .beat b :: rest) (hd : decode b = .ok i) (hl : s.params.level = .command)
      (hx : exec i (s.setHost rest) = .next t) : StepCase s t
  | accepts {b : Beat} {rest : List HostMove} {i : Instr} (hq : s.seq = .idle) (hh : s.host = .beat b :: rest)
      (hd : decode b = .ok i) (hl : s.params.level = .sequencer) : StepCase s (seqAccept i (s.setHost rest))
  | advances {i : Instr} {k : Nat} (hq : s.seq = .busy i k) : StepCase s (seqAdvance i k s)

/-- An idle controller that finds no move of the host stays as it is. -/
theorem step_of_noMove {s : State} (hq : s.seq = .idle) (hh : s.host = []) : step s = .next s := by
  simp only [step, stepOnce, hq, hh]

/-- An idle controller that finds the host's reset is reset. -/
theorem step_of_reset {s : State} {rest : List HostMove} (hq : s.seq = .idle) (hh : s.host = .reset :: rest) :
    step s = .next (s.setHost rest).hardwareReset := by
  simp only [step, stepOnce, hq, hh]

/-- The cases are exactly the steps. -/
theorem step_iff_stepCase {s t : State} : step s = .next t ↔ StepCase s t := by
  constructor
  · intro h
    cases hq : s.seq with
    | busy i k =>
      obtain rfl := Host.Outcome.next.inj ((step_of_busy hq).symm.trans h)
      exact .advances hq
    | idle =>
      match hh : s.host with
      | [] =>
        obtain rfl := Host.Outcome.next.inj ((step_of_noMove hq hh).symm.trans h)
        exact .stays hq hh
      | .reset :: rest =>
        obtain rfl := Host.Outcome.next.inj ((step_of_reset hq hh).symm.trans h)
        exact .resets hq hh
      | .beat b :: rest =>
        rw [step_of_beat hq hh] at h
        cases hd : decode b with
        | error e =>
          obtain rfl := Host.Outcome.next.inj ((takeBeat_of_illegal hd _).symm.trans h)
          exact .rejects hq hh hd
        | ok i =>
          cases hl : s.params.level with
          | command => exact .executes hq hh hd hl ((takeBeat_of_command (s := s.setHost rest) hd hl).symm.trans h)
          | sequencer =>
            obtain rfl := Host.Outcome.next.inj ((takeBeat_of_sequencer (s := s.setHost rest) hd hl).symm.trans h)
            exact .accepts hq hh hd hl
  · intro h
    cases h with
    | stays hq hh => exact step_of_noMove hq hh
    | resets hq hh => exact step_of_reset hq hh
    | rejects hq hh hd => exact (step_of_beat hq hh).trans (takeBeat_of_illegal hd _)
    | @executes _ rest _ _ hq hh hd hl hx =>
      exact (step_of_beat hq hh).trans ((takeBeat_of_command (s := s.setHost rest) hd hl).trans hx)
    | @accepts _ rest _ hq hh hd hl =>
      exact (step_of_beat hq hh).trans (takeBeat_of_sequencer (s := s.setHost rest) hd hl)
    | advances hq => exact step_of_busy hq

/-- EVERYTHING the acceptance of a command can do: refuse it, finish it at once when it has no event, begin it. -/
theorem seqAccept_cases (i : Instr) (s : State) :
    (∃ e, checkVerdict i s = some e ∧ seqAccept i s = (s.raise e).setSeq .idle) ∨
    (checkVerdict i s = none ∧ eventsOf i (beforeEvents i s) = [] ∧ seqAccept i s = seqFinish i (beforeEvents i s)) ∨
    (checkVerdict i s = none ∧ seqAccept i s = (beforeEvents i s).setSeq (.busy i 0)) := by
  unfold seqAccept
  cases hv : checkVerdict i s with
  | some e => exact .inl ⟨e, rfl, rfl⟩
  | none =>
    cases hes : eventsOf i (beforeEvents i s) with
    | nil => exact .inr (.inl ⟨rfl, rfl, rfl⟩)
    | cons e es => exact .inr (.inr ⟨rfl, rfl⟩)

/-- EVERYTHING a busy sequencer can do: emit the next event, fail on it, or finish when there is none. -/
theorem seqAdvance_cases (i : Instr) (k : Nat) (s : State) :
    (∃ e, (eventsOf i s)[k]? = some e ∧ seqAdvance i k s = (s.eventOk e).setSeq (.busy i (k + 1))) ∨
    (∃ e, (eventsOf i s)[k]? = some e ∧ seqAdvance i k s = ((s.eventFail e).raise .hardwareFault).setSeq .idle) ∨
    ((eventsOf i s)[k]? = none ∧ seqAdvance i k s = seqFinish i s) := by
  unfold seqAdvance
  cases he : (eventsOf i s)[k]? with
  | none => exact .inr (.inr ⟨rfl, rfl⟩)
  | some e =>
    cases ha : s.answerAt 0 with
    | ok => exact .inl ⟨e, rfl, rfl⟩
    | fail => exact .inr (.inl ⟨e, rfl, rfl⟩)

/-- Only a CONFIG is accepted while UNCONFIGURED (60_exceptions.md R204). -/
theorem requiredCfg_cases (i : Instr) :
    (∃ len order, i = .config len order) ∧ requiredCfg i = .unconfigured ∨
    (∀ len order, i ≠ .config len order) ∧ requiredCfg i = .configured := by
  cases i <;> simp [requiredCfg]

/-- The after-events writes of a command that a configured controller accepts write at most the shadow. -/
theorem afterEvents_of_configured {i : Instr} (h : requiredCfg i = .configured) (s : State) :
    ∃ v, afterEvents i s = s.setShadow v := by
  cases i with
  | config len order => cases h
  | clear => exact ⟨0, rfl⟩
  | _ => exact ⟨s.shadow, rfl⟩

end Sys2Proof.Machine
end

section
/-! SUPPORT. The invariant of the registers, the chain's size and the port: every operation a step is made of keeps it. -/

namespace Sys2Proof.Machine

/-- The part of `State.Inv` that does not speak of the sequencer. -/
structure State.DataOk (s : State) : Prop where
  params : s.params.Ok
  registers : s.cfg = .configured → 1 ≤ s.chainLen ∧ s.chainLen ≤ s.params.nMax ∧ s.shadow < 2 ^ s.width
  stage : s.stage.length = 8 * s.params.parts
  latch : s.latch.length = 8 * s.params.parts
  host : ∀ b, .beat b ∈ s.host → b.wellFormed s.params = true
  responses : ∀ r ∈ s.responses, r.data < 2 ^ s.params.dataW ∧ (r.code = .ok ∨ r.data = 0)

/-- The part of `State.Inv` on a busy sequencer (10_state.md R32). -/
def State.SeqOk (s : State) : Prop :=
  ∀ i k, s.seq = .busy i k → checkVerdict i s = none ∧ k ≤ (eventsOf i s).length

theorem inv_iff (s : State) : s.Inv ↔ s.DataOk ∧ s.SeqOk := by
  constructor
  · rintro ⟨hp, hr, hs, hl, hh, hresp, hq⟩
    refine ⟨⟨hp, hr, hs, hl, fun b hb => hh (.beat b) hb, hresp⟩, fun i k hb => ?_⟩
    rwa [hb] at hq
  · rintro ⟨⟨hp, hr, hs, hl, hh, hresp⟩, hq⟩
    refine ⟨hp, hr, hs, hl, fun m hm => ?_, hresp, ?_⟩
    · cases m with
      | beat b => exact hh b hm
      | reset => trivial
    · cases hb : s.seq with
      | idle => trivial
      | busy i k => exact hq i k hb

/-- An idle controller has only the registers, the chain and the port to keep in order. -/
theorem inv_of_idle {s : State} (h : s.DataOk) (hq : s.seq = .idle) : s.Inv :=
  (inv_iff s).2 ⟨h, fun i k hb => by rw [hq] at hb; cases hb⟩

namespace State.DataOk

variable {s : State}

theorem setSeq (h : s.DataOk) (q : Sequencer) : (s.setSeq q).DataOk := { h with }

theorem setHost {m : HostMove} {rest : List HostMove} (h : s.DataOk) (hh : s.host = m :: rest) :
    (s.setHost rest).DataOk :=
  { h with host := fun b hb => h.host b (hh ▸ List.mem_cons_of_mem _ hb) }

theorem setShadow {v : Nat} (h : s.DataOk) (hv : s.cfg = .configured → v < 2 ^ s.width) : (s.setShadow v).DataOk :=
  { h with registers := fun hc => ⟨(h.registers hc).1, (h.registers hc).2.1, hv hc⟩ }

theorem respond {c : RespCode} {d : Nat} (h : s.DataOk) (hd : d < 2 ^ s.params.dataW) (hc : c = .ok ∨ d = 0) :
    (s.respond c d).DataOk :=
  { h with
    responses := fun r hr => by
      rcases List.mem_append.1 hr with hr | hr
      · exact h.responses r hr
      · obtain rfl := List.mem_singleton.1 hr
        exact ⟨hd, hc⟩ }

theorem raise (h : s.DataOk) (e : CmdError) : (s.raise e).DataOk := h.respond (Nat.two_pow_pos _) (.inr rfl)

theorem eventOk (h : s.DataOk) (e : LineEvent) : (s.eventOk e).DataOk :=
  { h with
    stage := (stageAfter_length _ _ _ _).trans h.stage
    latch := (latchAfter_length _ _ _ (h.stage.trans h.latch.symm)).trans h.latch }

theorem eventFail (h : s.DataOk) (e : LineEvent) : (s.eventFail e).DataOk :=
  { h with
    stage := List.length_replicate.trans h.stage
    latch := List.length_replicate.trans h.latch }

theorem hardwareReset (h : s.DataOk) : s.hardwareReset.DataOk :=
  { h with
    registers := fun hc => by cases hc
    stage := List.length_replicate.trans h.stage
    latch := List.length_replicate.trans h.latch }

theorem construct {n : Nat} (h : s.DataOk) (h1 : 1 ≤ n) (hn : n ≤ s.params.nMax) (o : BitOrder) :
    (s.construct n o).DataOk :=
  { h with registers := fun _ => ⟨h1, hn, Nat.two_pow_pos _⟩ }

/-- The level of description is no part of the invariant. -/
theorem recast_iff (l : Granularity) (q : Sequencer) : (s.recast l q).DataOk ↔ s.DataOk :=
  ⟨fun h => ⟨h.params, h.registers, h.stage, h.latch, h.host, h.responses⟩,
    fun h => ⟨h.params, h.registers, h.stage, h.latch, h.host, h.responses⟩⟩

end State.DataOk

/-- What the before-events writes put in the shadow has its width (42_write.md R150, R151, R155). -/
theorem beforeEvents_shadow_lt {s : State} (i : Instr) (h : s.shadow < 2 ^ s.width) :
    (beforeEvents i s).shadow < 2 ^ s.width := by
  cases i with
  | wrreg v => exact (registerOperand_eq s.width v).trans_lt (Nat.mod_lt _ (Nat.two_pow_pos _))
  | wrbyte | wrbit | pset | ptgl | pon | poff => exact memWrite_lt ..
  | _ => exact h

theorem State.DataOk.beforeEvents {s : State} (h : s.DataOk) (i : Instr) : (beforeEvents i s).DataOk := by
  have hlt := fun hc => beforeEvents_shadow_lt i (h.registers hc).2.2
  obtain ⟨v, hb⟩ := beforeEvents_eq i s
  rw [hb] at hlt ⊢
  exact h.setShadow hlt

/-- A CONFIG that passes its checks names a length from 1 to `N_MAX` (40_construction_and_clear.md R120). -/
theorem config_len_of_passed {len : Int} {order : BitVec 2} {s : State}
    (h : checkVerdict (.config len order) s = none) : 1 ≤ len ∧ len ≤ s.params.nMax := by
  have hv := (passed_check h).2
  simp only [operandVerdict] at hv
  split at hv
  · next hp => exact ⟨hp.1, hp.2.1⟩
  · cases hv

theorem State.DataOk.afterEvents {s : State} {i : Instr} (h : s.DataOk) (hv : checkVerdict i s = none) :
    (afterEvents i s).DataOk := by
  cases i with
  | config len order =>
    obtain ⟨h1, hn⟩ := config_len_of_passed hv
    exact h.construct (by omega) (by omega) _
  | clear => exact h.setShadow fun _ => Nat.two_pow_pos _
  | _ => exact h

/-- The datum of an OK response fits the port (30_encoding.md R100): the shadow has at most `8 * N_MAX` bits. -/
theorem State.DataOk.datumOf_lt {s : State} {i : Instr} (h : s.DataOk) (hv : checkVerdict i s = none) :
    datumOf i s < 2 ^ s.params.dataW := by
  obtain ⟨h1, -, hw, -⟩ := h.params
  have hbyte (a : Nat) : memRead s.shadow a 8 < 2 ^ s.params.dataW :=
    (memRead_lt ..).trans_le (Nat.pow_le_pow_right (by omega) (by omega))
  have hbit (a : Nat) : memRead s.shadow a 1 < 2 ^ s.params.dataW :=
    (memRead_lt ..).trans_le (Nat.pow_le_pow_right (by omega) (by omega))
  cases i with
  | rdreg =>
    obtain ⟨-, hn, hs⟩ := h.registers (passed_check hv).1
    exact hs.trans_le (Nat.pow_le_pow_right (by omega) (by unfold State.width; omega))
  | rdbyte k => exact hbyte _
  | rdbit b => exact hbit _
  | pget p => exact hbit _
  | _ => exact Nat.two_pow_pos _

theorem State.DataOk.seqFinish {s : State} {i : Instr} (h : s.DataOk) (hv : checkVerdict i s = none) :
    (seqFinish i s).DataOk := by
  have hp : (Machine.afterEvents i s).params = s.params := (afterEvents_same i s).1
  exact ((h.afterEvents hv).respond (by rw [hp]; exact h.datumOf_lt hv) (.inl rfl)).setSeq _

theorem inv_seqFinish {s : State} {i : Instr} (h : s.DataOk) (hv : checkVerdict i s = none) : (seqFinish i s).Inv :=
  inv_of_idle (h.seqFinish hv) rfl

@[simp] theorem checkVerdict_setSeq (i : Instr) (s : State) (q : Sequencer) :
    checkVerdict i (s.setSeq q) = checkVerdict i s :=
  checkVerdict_congr i rfl rfl rfl

@[simp] theorem checkVerdict_eventOk (i : Instr) (s : State) (e : LineEvent) :
    checkVerdict i (s.eventOk e) = checkVerdict i s :=
  checkVerdict_congr i rfl rfl rfl

@[simp] theorem eventsOf_setSeq (i : Instr) (s : State) (q : Sequencer) : eventsOf i (s.setSeq q) = eventsOf i s :=
  eventsOf_congr i rfl rfl rfl

/-- The acceptance of a command keeps the invariant. -/
theorem inv_seqAccept {s : State} (h : s.DataOk) (i : Instr) : (seqAccept i s).Inv := by
  have hb := h.beforeEvents i
  rcases seqAccept_cases i s with ⟨e, -, hx⟩ | ⟨hv, -, hx⟩ | ⟨hv, hx⟩ <;> rw [hx]
  · exact inv_of_idle ((h.raise e).setSeq _) rfl
  · exact inv_seqFinish hb ((checkVerdict_beforeEvents i s).trans hv)
  · refine (inv_iff _).2 ⟨hb.setSeq _, fun j k hq => ?_⟩
    obtain ⟨rfl, rfl⟩ := Sequencer.busy.inj hq
    exact ⟨by simpa [checkVerdict_beforeEvents] using hv, Nat.zero_le _⟩

/-- The advance of a busy sequencer keeps the invariant. -/
theorem inv_seqAdvance {s : State} {i : Instr} {k : Nat} (h : s.DataOk) (hv : checkVerdict i s = none) :
    (seqAdvance i k s).Inv := by
  rcases seqAdvance_cases i k s with ⟨e, he, hx⟩ | ⟨e, -, hx⟩ | ⟨-, hx⟩ <;> rw [hx]
  · refine (inv_iff _).2 ⟨(h.eventOk e).setSeq _, fun j k' hq => ?_⟩
    obtain ⟨rfl, rfl⟩ := Sequencer.busy.inj hq
    obtain ⟨hk, -⟩ := List.getElem?_eq_some_iff.1 he
    exact ⟨by simpa using hv, by simpa using hk⟩
  · exact inv_of_idle (((h.eventFail e).raise _).setSeq _) rfl
  · exact inv_seqFinish h hv

end Sys2Proof.Machine
end

section
/-! SUPPORT. Every pulse a command begins it also ends: each event that takes a clock or the clear line away from its
rest level is followed at once by the event that takes it back (10_state.md R27, 70_reset_and_hazards.md R258). -/

namespace Sys2Proof.Machine

/-- Each event of the list leaves its line at rest, or the next event of the list takes that line there. -/
def PulsesClose : List LineEvent → Prop
  | [] => True
  | e :: es => (∀ v, restLevel e.line = some v → e.level = v ∨ es.head? = some ⟨e.line, v⟩) ∧ PulsesClose es

theorem PulsesClose.append {es fs : List LineEvent} (hf : PulsesClose fs) :
    PulsesClose es → PulsesClose (es ++ fs) := by
  induction es with
  | nil => exact fun _ => hf
  | cons e es ih =>
    rintro ⟨he, hes⟩
    rw [List.cons_append]
    refine ⟨fun v hv => (he v hv).imp_right fun h => ?_, ih hes⟩
    rw [List.head?_append, h, Option.some_or]

/-- What `PulsesClose` says of the event at a place. -/
theorem PulsesClose.getElem? {es : List LineEvent} {k : Nat} {e : LineEvent} {v : Level} (h : PulsesClose es)
    (he : es[k]? = some e) (hv : restLevel e.line = some v) : e.level = v ∨ es[k + 1]? = some ⟨e.line, v⟩ := by
  induction es generalizing k with
  | nil => cases he
  | cons d es ih =>
    cases k with
    | zero =>
      obtain rfl := Option.some.inj he
      simpa [List.head?_eq_getElem?] using h.1 v hv
    | succ k => exact ih h.2 he

theorem pulsesClose_bitsEvents (f : Nat → Bool) (n : Nat) : PulsesClose (bitsEvents f n) := by
  induction n with
  | zero => trivial
  | succ n ih =>
    rw [bitsEvents_succ]
    exact .append (by simp [PulsesClose, bitEvents, pulse, restLevel]) ih

theorem pulsesClose_shiftOut (o : BitOrder) (n v : Nat) : PulsesClose (shiftOutEvents o n v) := by
  rw [shiftOutEvents_eq]
  refine .append (by simp [PulsesClose, restLevel]) (.append (pulsesClose_bitsEvents _ _) ?_)
  simp [PulsesClose, restLevel]

theorem pulsesClose_eventsOf (i : Instr) (s : State) : PulsesClose (eventsOf i s) := by
  cases i with
  | config len order => simp [eventsOf, configEvents, PulsesClose, restLevel]
  | clear => simp [eventsOf, clearEvents, pulse, PulsesClose, restLevel]
  | rdreg | rdbyte | rdbit | pget => trivial
  | _ => exact pulsesClose_shiftOut ..

end Sys2Proof.Machine
end

section
/-! SUPPORT. The invariant of the clock and clear lines, kept by the sequencer's acceptance of a command and by its
advance. -/

namespace Sys2Proof.Machine

/-- Every clock or clear line whose level is specified is at rest, or the event `next` takes it there. -/
def State.Rests (s : State) (next : Option LineEvent) : Prop :=
  ∀ l v, restLevel l = some v → s.specified.get l = true → s.lines.get l = v ∨ next = some ⟨l, v⟩

/-- The lines a CONFIG on its way has driven after `k` events stand at the levels it drove. -/
def State.ConfigDrove (s : State) (k : Nat) : Prop :=
  ∀ e ∈ configEvents.take k, s.specified.get e.line = true ∧ s.lines.get e.line = e.level

theorem clocksInv_of_idle {s : State} (hq : s.seq = .idle) : s.ClocksInv ↔ (s.cfg = .configured → s.Rests none) := by
  simp only [State.ClocksInv, State.nextEvent, State.Rests, hq, and_true]

theorem clocksInv_setHost {s : State} {rest : List HostMove} (hq : s.seq = .idle) :
    (s.setHost rest).ClocksInv ↔ s.ClocksInv :=
  (clocksInv_of_idle (s := s.setHost rest) hq).trans (clocksInv_of_idle hq).symm

theorem clocksInv_raise {s : State} {e : CmdError} (hq : s.seq = .idle) : (s.raise e).ClocksInv ↔ s.ClocksInv :=
  (clocksInv_of_idle (s := s.raise e) hq).trans (clocksInv_of_idle hq).symm

theorem clocksInv_of_busy {s : State} {i : Instr} {k : Nat} (hq : s.seq = .busy i k) :
    s.ClocksInv ↔ (s.cfg = .configured → s.Rests (eventsOf i s)[k]?) ∧
      ∀ len order, i = .config len order → s.ConfigDrove k := by
  cases i <;> simp [State.ClocksInv, State.nextEvent, State.Rests, State.ConfigDrove, hq]

theorem State.Rests.mono {s : State} (h : s.Rests none) (next : Option LineEvent) : s.Rests next :=
  fun l v hl hs => .inl ((h l v hl hs).resolve_right (by simp))

/-- The next event, answered `ok`, takes its line to the level the pulse wants, and leaves the others. -/
theorem State.Rests.eventOk {s : State} {es : List LineEvent} {k : Nat} {e : LineEvent} (h : s.Rests es[k]?)
    (hp : PulsesClose es) (he : es[k]? = some e) : (s.eventOk e).Rests es[k + 1]? := by
  intro l v hl hs
  by_cases hel : e.line = l
  · subst hel
    simpa using hp.getElem? he hl
  · simp only [eventOk_specified, eventOk_lines, PerLine.get_set_of_ne _ _ hel] at hs ⊢
    refine .inl ((h l v hl hs).resolve_right fun hn => hel ?_)
    exact congrArg LineEvent.line (Option.some.inj (he.symm.trans hn))

/-- The next event, answered `fail`, leaves its line unspecified: no level is asked of it any more (R208). -/
theorem State.Rests.eventFail {s : State} {e : LineEvent} (h : s.Rests (some e)) : (s.eventFail e).Rests none := by
  intro l v hl hs
  by_cases hel : e.line = l
  · subst hel
    simp at hs
  · simp only [eventFail_specified, eventFail_lines, PerLine.get_set_of_ne _ _ hel] at hs ⊢
    refine .inl ((h l v hl hs).resolve_right fun hn => hel ?_)
    exact congrArg LineEvent.line (Option.some.inj hn)

/-- No two events of CONFIG drive the same line. -/
theorem configEvents_line_inj : ∀ e ∈ configEvents, ∀ f ∈ configEvents, e.line = f.line → e = f := by decide

theorem State.ConfigDrove.eventOk {s : State} {k : Nat} {e : LineEvent} (h : s.ConfigDrove k)
    (he : configEvents[k]? = some e) : (s.eventOk e).ConfigDrove (k + 1) := by
  intro f hf
  by_cases hl : e.line = f.line
  · obtain rfl := configEvents_line_inj e (List.mem_of_getElem? he) f (List.mem_of_mem_take hf) hl
    simp
  · rw [List.take_add_one, he, List.mem_append] at hf
    have hf' := hf.resolve_right fun hm => hl (congrArg LineEvent.line (Option.some.inj (Option.mem_toList.1 hm)))
    obtain ⟨hs, hv⟩ := h f hf'
    simp [PerLine.get_set_of_ne _ _ hl, hs, hv]

/-- A CONFIG all of whose events are answered `ok` leaves the clocks and the clear line at rest (R121). -/
theorem State.ConfigDrove.rests {s : State} {k : Nat} (h : s.ConfigDrove k) (hk : configEvents[k]? = none) :
    s.Rests none := by
  rw [State.ConfigDrove, List.take_of_length_le (List.getElem?_eq_none_iff.1 hk)] at h
  intro l v hl _
  cases l <;> cases hl
  · exact .inl (h ⟨.sck, false⟩ (by decide)).2
  · exact .inl (h ⟨.lck, false⟩ (by decide)).2
  · exact .inl (h ⟨.clr, true⟩ (by decide)).2

/-- A command that finishes with every line at rest leaves every line at rest. -/
theorem clocksInv_seqFinish {s : State} (i : Instr) (h : s.Rests none) : (seqFinish i s).ClocksInv := by
  obtain ⟨-, -, -, -, hl, -, -, -, -, -, hs⟩ := afterEvents_same i s
  refine (clocksInv_of_idle rfl).2 fun _ => ?_
  simpa [State.Rests, seqFinish, hl, hs] using h

/-- An idle controller accepts a command. -/
theorem clocksInv_seqAccept {s : State} (i : Instr) (hq : s.seq = .idle) (h : s.ClocksInv) :
    (seqAccept i s).ClocksInv := by
  have hrest := (clocksInv_of_idle hq).1 h
  obtain ⟨v, hb⟩ := beforeEvents_eq i s
  rcases seqAccept_cases i s with ⟨e, -, hx⟩ | ⟨hv, hnil, hx⟩ | ⟨hv, hx⟩ <;> rw [hx]
  · exact (clocksInv_of_idle rfl).2 hrest
  · rcases requiredCfg_cases i with ⟨⟨len, order, rfl⟩, -⟩ | ⟨-, hr⟩
    · cases hnil
    · rw [hb]
      exact clocksInv_seqFinish i (hrest ((passed_check hv).1.trans hr))
  · rw [hb]
    refine (clocksInv_of_busy rfl).2 ⟨fun hc => (hrest hc).mono _, fun _ _ _ f hf => ?_⟩
    simp at hf

/-- A busy controller goes on with a command that passed its checks. -/
theorem clocksInv_seqAdvance {s : State} {i : Instr} {k : Nat} (hq : s.seq = .busy i k)
    (hv : checkVerdict i s = none) (h : s.ClocksInv) : (seqAdvance i k s).ClocksInv := by
  obtain ⟨hrest, hcfg⟩ := (clocksInv_of_busy hq).1 h
  rcases seqAdvance_cases i k s with ⟨e, he, hx⟩ | ⟨e, he, hx⟩ | ⟨he, hx⟩ <;> rw [hx]
  · refine (clocksInv_of_busy rfl).2 ⟨fun hc => ?_, ?_⟩
    · rw [eventsOf_setSeq, eventsOf_eventOk]
      exact (hrest hc).eventOk (pulsesClose_eventsOf i s) he
    · rintro len order rfl
      exact (hcfg len order rfl).eventOk he
  · refine (clocksInv_of_idle rfl).2 fun hc => ?_
    rw [he] at hrest
    exact (hrest hc).eventFail
  · refine clocksInv_seqFinish i ?_
    rcases requiredCfg_cases i with ⟨⟨len, order, rfl⟩, -⟩ | ⟨-, hr⟩
    · exact (hcfg len order rfl).rests he
    · rw [he] at hrest
      exact hrest ((passed_check hv).1.trans hr)

end Sys2Proof.Machine
end

section
/-! Both invariants are kept by every step (O14). The work is done at the sequencer level, event by event; a command run
whole at command level inherits it, since the sequencer reaches the same state (O60). -/

namespace Sys2Proof.Machine

/-- No step changes the parameters. -/
theorem step_params {s t : State} (h : step s = .next t) : t.params = s.params := by
  cases step_iff_stepCase.1 h with
  | stays | resets | rejects => rfl
  | executes hq hh hd hl hx => exact (exec_sameSurroundings hx).1
  | @accepts b rest i =>
    have hb : (beforeEvents i (s.setHost rest)).params = s.params := (beforeEvents_sameSurroundings i _).1
    rcases seqAccept_cases i (s.setHost rest) with ⟨e, -, hx⟩ | ⟨-, -, hx⟩ | ⟨-, hx⟩ <;> rw [hx]
    · rfl
    · exact (afterEvents_same i _).1.trans hb
    · exact hb
  | @advances i k =>
    rcases seqAdvance_cases i k s with ⟨e, -, hx⟩ | ⟨e, -, hx⟩ | ⟨-, hx⟩ <;> rw [hx]
    · rfl
    · rfl
    · exact (afterEvents_same i s).1

/-- `t` meets the invariants that `s` meets, given that `s` meets the first. -/
def KeepsInv (s t : State) : Prop := t.Inv ∧ (s.ClocksInv → t.ClocksInv)

/-- Every step but the run of a whole command keeps the invariants, at either level of description. -/
theorem keepsInv_of_step {s t : State} (hi : s.Inv) (h : step s = .next t)
    (hx : ∀ b rest i, s.seq = .idle → s.params.level = .command → s.host = .beat b :: rest →
      exec i (s.setHost rest) = .next t → KeepsInv s t) :
    KeepsInv s t := by
  obtain ⟨hd, hs⟩ := (inv_iff s).1 hi
  cases step_iff_stepCase.1 h with
  | stays => exact ⟨hi, id⟩
  | resets hq hh =>
    refine ⟨inv_of_idle (hd.setHost hh).hardwareReset rfl, fun _ => (clocksInv_of_idle rfl).2 fun hc => ?_⟩
    cases hc
  | @rejects b rest e hq hh =>
    exact ⟨inv_of_idle ((hd.setHost hh).raise _) hq, fun hc =>
      (clocksInv_raise (s := s.setHost rest) hq).2 ((clocksInv_setHost hq).2 hc)⟩
  | executes hq hh _ hl he => exact hx _ _ _ hq hl hh he
  | accepts hq hh =>
    exact ⟨inv_seqAccept (hd.setHost hh) _, fun hc => clocksInv_seqAccept _ hq ((clocksInv_setHost hq).2 hc)⟩
  | advances hq =>
    obtain ⟨hv, -⟩ := hs _ _ hq
    exact ⟨inv_seqAdvance hd hv, clocksInv_seqAdvance hq hv⟩

/-- A run at sequencer level keeps the invariants. -/
theorem keepsInv_of_run {n : Nat} {s t : State} (hl : s.params.level = .sequencer) (hi : s.Inv)
    (h : core.run n s = .next t) : KeepsInv s t := by
  induction n generalizing s with
  | zero =>
    obtain rfl := Host.Outcome.next.inj h
    exact ⟨hi, id⟩
  | succ n ih =>
    simp only [Host.Core.run] at h
    split at h
    · next u hu =>
      have hstep : step s = .next u := hu
      have hsu := keepsInv_of_step hi hstep fun _ _ _ _ hc => by rw [hl] at hc; cases hc
      have hut := ih (by rw [step_params hstep, hl]) hsu.1 h
      exact ⟨hut.1, hut.2 ∘ hsu.2⟩
    · cases h
    · cases h

/-- Neither invariant of an idle controller depends on the level of description. -/
theorem idle_recast_iff {s : State} (hq : s.seq = .idle) (l : Granularity) :
    ((s.recast l .idle).Inv ↔ s.Inv) ∧ ((s.recast l .idle).ClocksInv ↔ s.ClocksInv) := by
  refine ⟨⟨fun h => ?_, fun h => ?_⟩, (clocksInv_of_idle rfl).trans (clocksInv_of_idle hq).symm⟩
  · exact inv_of_idle ((State.DataOk.recast_iff l .idle).1 ((inv_iff _).1 h).1) hq
  · exact inv_of_idle ((State.DataOk.recast_iff l .idle).2 ((inv_iff s).1 h).1) rfl

/-- Settles O14: one event at a time at sequencer level, and by the refinement of the levels (O60) for a command run
whole. -/
theorem stepKeepsInv : Obligations.StepKeepsInv := by
  intro s t hi h
  refine keepsInv_of_step hi h fun b rest i hq hl hh hx => ?_
  have htq : t.seq = .idle := (exec_sameSurroundings hx).2.1.trans hq
  obtain ⟨n, hrun⟩ := sequencerRefinesCommand s t b rest hq hl hh h
  rw [← State.recast_of_seq hq, ← State.recast_of_seq htq] at hrun
  obtain ⟨hsInv, hsClocks⟩ := idle_recast_iff hq .sequencer
  obtain ⟨htInv, htClocks⟩ := idle_recast_iff htq .sequencer
  obtain ⟨hinv, hclocks⟩ := keepsInv_of_run rfl (hsInv.2 hi) hrun
  exact ⟨htInv.1 hinv, fun hc => htClocks.1 (hclocks (hsClocks.2 hc))⟩

end Sys2Proof.Machine
end

section
/-! The configuration registers stand from CONFIG to the host's reset (10_state.md R22 to R24,
40_construction_and_clear.md R124). -/

namespace Sys2Proof.Machine

theorem beforeEvents_sameConfiguration (i : Instr) (s : State) : SameConfiguration s (beforeEvents i s) := by
  obtain ⟨v, hb⟩ := beforeEvents_eq i s
  rw [hb]
  exact ⟨rfl, rfl, rfl⟩

/-- A command whose checks a configured controller passes is no CONFIG: its writes leave the configuration. -/
theorem afterEvents_sameConfiguration {i : Instr} {s : State} (hc : s.cfg = .configured)
    (hv : checkVerdict i s = none) (u : State) : SameConfiguration u (afterEvents i u) := by
  obtain ⟨v, ha⟩ := afterEvents_of_configured ((passed_check hv).1.symm.trans hc) u
  rw [ha]
  exact ⟨rfl, rfl, rfl⟩

theorem exec_sameConfiguration {i : Instr} {s t : State} (hc : s.cfg = .configured) (h : exec i s = .next t) :
    SameConfiguration s t := by
  have hb := beforeEvents_sameConfiguration i s
  rcases exec_cases i s with ⟨e, -, -, hx⟩ | ⟨hv, u, rfl, -, hx⟩ | ⟨-, u, j, e, rfl, -, -, hx⟩ <;>
    obtain rfl := Host.Outcome.next.inj (hx.symm.trans h)
  · exact ⟨rfl, rfl, rfl⟩
  · have ha := afterEvents_sameConfiguration hc hv (applied (eventsOf i (beforeEvents i s)) (beforeEvents i s))
    simpa [SameConfiguration, ha] using hb
  · simpa [SameConfiguration] using hb

theorem seqAccept_sameConfiguration {s : State} (i : Instr) (hc : s.cfg = .configured) :
    SameConfiguration s (seqAccept i s) := by
  have hb := beforeEvents_sameConfiguration i s
  rcases seqAccept_cases i s with ⟨e, -, hx⟩ | ⟨hv, -, hx⟩ | ⟨-, hx⟩ <;> rw [hx]
  · exact ⟨rfl, rfl, rfl⟩
  · simpa [SameConfiguration, seqFinish, afterEvents_sameConfiguration hc hv (beforeEvents i s)] using hb
  · exact hb

theorem seqAdvance_sameConfiguration {s : State} {i : Instr} (k : Nat) (hc : s.cfg = .configured)
    (hv : checkVerdict i s = none) : SameConfiguration s (seqAdvance i k s) := by
  rcases seqAdvance_cases i k s with ⟨e, -, hx⟩ | ⟨e, -, hx⟩ | ⟨-, hx⟩ <;> rw [hx]
  · exact ⟨rfl, rfl, rfl⟩
  · exact ⟨rfl, rfl, rfl⟩
  · exact afterEvents_sameConfiguration hc hv s

/-- Settles O15; that a busy sequencer's command passed its checks, so that none is a CONFIG, is part of the
invariant. -/
theorem onlyResetUndoesConstruction : Obligations.OnlyResetUndoesConstruction := by
  intro s t hi h
  refine ⟨step_params h, fun hc hnr => ?_⟩
  suffices hsame : SameConfiguration s t from ⟨hsame.1.trans hc, hsame.2⟩
  cases step_iff_stepCase.1 h with
  | stays | rejects => exact ⟨rfl, rfl, rfl⟩
  | resets hq hh => exact absurd hh (hnr hq _)
  | @executes b rest i _ hq hh hd hl hx => exact exec_sameConfiguration (s := s.setHost rest) hc hx
  | @accepts b rest i => exact seqAccept_sameConfiguration (s := s.setHost rest) i hc
  | @advances i k hq =>
    obtain ⟨hv, -⟩ := ((inv_iff s).1 hi).2 i k hq
    exact seqAdvance_sameConfiguration k hc hv

end Sys2Proof.Machine
end

section
/-! SUPPORT. What the machine does not read. A change of the state is invisible to a command's events when it commutes
with each of them and leaves the answers; then it commutes with the whole run of the events. -/

namespace Sys2Proof.Machine

/-- The change `f` of the state commutes with every line event and leaves the line environment's answers. -/
structure EventBlind (f : State → State) : Prop where
  answerAt : ∀ s, (f s).answerAt 0 = s.answerAt 0
  eventOk : ∀ s e, (f s).eventOk e = f (s.eventOk e)
  eventFail : ∀ s e, (f s).eventFail e = f (s.eventFail e)

theorem EventBlind.emit {f : State → State} (h : EventBlind f) (es : List LineEvent) (s : State) :
    emit es (f s) = (f (emit es s).1, (emit es s).2) := by
  induction es generalizing s with
  | nil => rfl
  | cons e es ih =>
    cases ha : s.answerAt 0 with
    | ok => simp only [Machine.emit, h.answerAt, ha, h.eventOk, ih]
    | fail => simp only [Machine.emit, h.answerAt, ha, h.eventFail]

end Sys2Proof.Machine
end

section
/-! Nothing flows from the chain to the controller (10_state.md R35, 20_memory.md R68). -/

namespace Sys2Proof.Machine

/-- The system without its chain. -/
def State.forgetChain (s : State) : State := { s with stage := [], latch := [] }

theorem eq_of_forgetChain_eq {s t : State} (h : s.forgetChain = t.forgetChain) :
    s = { t with stage := s.stage, latch := s.latch } := by
  cases s; cases t
  simpa [State.forgetChain] using h

/-- Without a chain an event does what it did to everything else. -/
theorem forgetChain_eventOk (s : State) (e : LineEvent) : s.forgetChain.eventOk e = (s.eventOk e).forgetChain := by
  have hs : stageAfter s.lines s.specified e [] = [] := List.length_eq_zero_iff.1 (stageAfter_length ..)
  have hl : latchAfter s.lines s.specified e [] [] = [] := List.length_eq_zero_iff.1 (latchAfter_length _ _ _ rfl)
  simp only [State.eventOk, State.forgetChain, hs, hl]

theorem eventBlind_forgetChain : EventBlind State.forgetChain where
  answerAt _ := rfl
  eventOk := forgetChain_eventOk
  eventFail _ _ := rfl

theorem forgetChain_beforeEvents (i : Instr) (s : State) :
    beforeEvents i s.forgetChain = (beforeEvents i s).forgetChain := by
  cases i <;> rfl

theorem forgetChain_afterEvents (i : Instr) (s : State) :
    afterEvents i s.forgetChain = (afterEvents i s).forgetChain := by
  cases i <;> rfl

theorem forgetChain_datumOf (i : Instr) (s : State) : datumOf i s.forgetChain = datumOf i s := by
  cases i <;> rfl

theorem forgetChain_checkVerdict (i : Instr) (s : State) : checkVerdict i s.forgetChain = checkVerdict i s :=
  checkVerdict_congr i rfl rfl rfl

theorem forgetChain_eventsOf (i : Instr) (s : State) : eventsOf i s.forgetChain = eventsOf i s :=
  eventsOf_congr i rfl rfl rfl

theorem forgetChain_driveThen (es : List LineEvent) (i : Instr) (d : Nat) (s : State) :
    driveThen es (afterEvents i) d s.forgetChain = (driveThen es (afterEvents i) d s).forgetChain := by
  unfold driveThen
  rw [eventBlind_forgetChain.emit]
  obtain ⟨t, a⟩ := emit es s
  cases a with
  | ok => simp only [forgetChain_afterEvents]; rfl
  | fail => rfl

theorem forgetChain_runByTables (i : Instr) (s : State) :
    runByTables i s.forgetChain = (runByTables i s).forgetChain := by
  unfold runByTables
  rw [forgetChain_checkVerdict, forgetChain_beforeEvents, forgetChain_eventsOf, forgetChain_datumOf]
  cases checkVerdict i s with
  | some e => rfl
  | none => exact forgetChain_driveThen ..

theorem forgetChain_seqFinish (i : Instr) (s : State) : seqFinish i s.forgetChain = (seqFinish i s).forgetChain := by
  unfold seqFinish
  rw [forgetChain_afterEvents, forgetChain_datumOf]
  rfl

theorem forgetChain_seqAccept (i : Instr) (s : State) : seqAccept i s.forgetChain = (seqAccept i s).forgetChain := by
  unfold seqAccept
  rw [forgetChain_checkVerdict, forgetChain_beforeEvents, forgetChain_eventsOf]
  cases checkVerdict i s with
  | some e => rfl
  | none =>
    cases eventsOf i (beforeEvents i s) with
    | nil => exact forgetChain_seqFinish ..
    | cons e es => rfl

theorem forgetChain_seqAdvance (i : Instr) (k : Nat) (s : State) :
    seqAdvance i k s.forgetChain = (seqAdvance i k s).forgetChain := by
  unfold seqAdvance
  rw [forgetChain_eventsOf, eventBlind_forgetChain.answerAt]
  cases (eventsOf i s)[k]? with
  | none => exact forgetChain_seqFinish ..
  | some e =>
    cases s.answerAt 0 with
    | ok => simp only [forgetChain_eventOk]; rfl
    | fail => rfl

theorem forgetChain_setHost (s : State) (rest : List HostMove) :
    s.forgetChain.setHost rest = (s.setHost rest).forgetChain := rfl

/-- A step of the system without its chain is the step of the system. -/
theorem step_forgetChain {s t : State} (h : step s = .next t) : step s.forgetChain = .next t.forgetChain := by
  cases step_iff_stepCase.1 h with
  | stays hq hh => exact step_of_noMove hq hh
  | resets hq hh => exact step_of_reset hq hh
  | @rejects b rest e hq hh hd => exact (step_of_beat (s := s.forgetChain) hq hh).trans (takeBeat_of_illegal hd _)
  | @executes b rest i _ hq hh hd hl hx =>
    rw [exec_eq_runByTables] at hx
    obtain rfl := Host.Outcome.next.inj hx
    refine step_iff_stepCase.2 (.executes hq hh hd hl ?_)
    rw [exec_eq_runByTables, forgetChain_setHost, forgetChain_runByTables]
  | @accepts b rest i hq hh hd hl =>
    rw [← forgetChain_seqAccept, ← forgetChain_setHost]
    exact step_iff_stepCase.2 (.accepts hq hh hd hl)
  | @advances i k hq =>
    rw [← forgetChain_seqAdvance]
    exact step_of_busy hq

/-- Every state has a next state: no command faults or is refused a meaning (60_exceptions.md R216). -/
theorem exists_step (s : State) : ∃ t, step s = .next t := by
  cases hq : s.seq with
  | busy i k => exact ⟨_, step_of_busy hq⟩
  | idle =>
    match hh : s.host with
    | [] => exact ⟨_, step_of_noMove hq hh⟩
    | .reset :: rest => exact ⟨_, step_of_reset hq hh⟩
    | .beat b :: rest =>
      rw [step_of_beat hq hh]
      cases hd : decode b with
      | error e => exact ⟨_, takeBeat_of_illegal hd _⟩
      | ok i =>
        cases hl : s.params.level with
        | command =>
          exact ⟨_, (takeBeat_of_command (s := s.setHost rest) hd hl).trans (exec_eq_runByTables i _)⟩
        | sequencer => exact ⟨_, takeBeat_of_sequencer (s := s.setHost rest) hd hl⟩

/-- Settles O17: with either chain the step is, but for the chain, the step of the system without one. -/
theorem chainIsNeverRead : Obligations.ChainIsNeverRead := by
  intro s t stage latch h
  obtain ⟨t', h'⟩ := exists_step { s with stage := stage, latch := latch }
  have hs' : step s.forgetChain = .next t'.forgetChain :=
    step_forgetChain (s := { s with stage := stage, latch := latch }) h'
  have htt' := Host.Outcome.next.inj (hs'.symm.trans (step_forgetChain h))
  exact ⟨t'.stage, t'.latch, h'.trans (congrArg _ (eq_of_forgetChain_eq htt'))⟩

end Sys2Proof.Machine
end

section
/-! The registers that CONFIG writes are not read before it (10_state.md R22, R36). -/

namespace Sys2Proof.Machine

/-- `s` with other contents of `CHAIN_LEN`, `BIT_ORDER` and the shadow. -/
def State.withRegisters (n : Nat) (o : BitOrder) (v : Nat) (s : State) : State :=
  { s with chainLen := n, bitOrder := o, shadow := v }

theorem eventBlind_withRegisters (n : Nat) (o : BitOrder) (v : Nat) : EventBlind (State.withRegisters n o v) where
  answerAt _ := rfl
  eventOk _ _ := rfl
  eventFail _ _ := rfl

/-- While UNCONFIGURED every command but CONFIG is answered IllegalState (60_exceptions.md R204). -/
theorem exec_unconfigured {i : Instr} {s : State} (hc : s.cfg = .unconfigured)
    (hi : ∀ len order, i ≠ .config len order) : exec i s = .next (s.raise .illegalState) := by
  have hr : requiredCfg i = .configured :=
    (requiredCfg_cases i).elim (fun ⟨⟨len, order, h⟩, _⟩ => absurd h (hi len order)) And.right
  rw [exec_eq_runByTables, runByTables, checkVerdict, if_neg (by simp [hc, hr])]

theorem emit_cfg (es : List LineEvent) (s : State) : (emit es s).1.cfg = s.cfg := by
  induction es generalizing s with
  | nil => rfl
  | cons e es ih =>
    unfold emit
    split
    · exact ih _
    · rfl

/-- The events of a CONFIG, then its writes: with other registers before it the same, where the writes come. -/
theorem driveThen_construct_withRegisters (es : List LineEvent) (m : Nat) (p : BitOrder) (d n : Nat) (o : BitOrder)
    (v : Nat) {s : State} (hc : s.cfg = .unconfigured) :
    driveThen es (fun t => t.construct m p) d (s.withRegisters n o v) =
      (if (driveThen es (fun t => t.construct m p) d s).cfg = .configured
        then driveThen es (fun t => t.construct m p) d s
        else (driveThen es (fun t => t.construct m p) d s).withRegisters n o v) := by
  have hcfg := (emit_cfg es s).trans hc
  unfold driveThen
  rw [(eventBlind_withRegisters n o v).emit]
  generalize emit es s = r at hcfg ⊢
  obtain ⟨t, a⟩ := r
  replace hcfg : t.cfg = .unconfigured := hcfg
  cases a with
  | ok => rfl
  | fail => rw [if_neg (by simp [hcfg])]; rfl

/-- Settles O16: only a CONFIG passes the checks, and it writes these registers if its events are all answered `ok`. -/
theorem unconfiguredRegistersAreNeverRead : Obligations.UnconfiguredRegistersAreNeverRead := by
  intro i s t n o v hc h
  show exec i (s.withRegisters n o v) = .next (if t.cfg = .configured then t else t.withRegisters n o v)
  rcases requiredCfg_cases i with ⟨⟨len, order, rfl⟩, -⟩ | ⟨hi, -⟩
  · rw [exec_eq_runByTables] at h ⊢
    obtain rfl := Host.Outcome.next.inj h
    have hv : checkVerdict (.config len order) (s.withRegisters n o v) = checkVerdict (.config len order) s := rfl
    unfold runByTables
    rw [hv]
    cases checkVerdict (.config len order) s with
    | some e => rw [if_neg (by simp [hc])]; rfl
    | none => exact congrArg _ (driveThen_construct_withRegisters _ _ _ _ n o v hc)
  · rw [exec_unconfigured hc hi] at h
    obtain rfl := Host.Outcome.next.inj h
    rw [exec_unconfigured (s := s.withRegisters n o v) hc hi, if_neg (by simp [hc])]
    rfl

end Sys2Proof.Machine
end

section
/-! The phases of the shift-out (10_state.md R32), and the controller right after a reset (R36). -/

namespace Sys2Proof.Machine

/-- Within the bits' events the phase says which of the three events of which bit comes next. -/
theorem phaseAt_bits_event (o : BitOrder) (w v m : Nat) (h : m < 3 * w) :
    (phaseAt w (m + 2)).event o w v = (bitsEvents (sentBit o w v) w)[m]? := by
  have hw : m + 2 < 2 + 3 * w := by omega
  obtain hm | hm | hm : m % 3 = 0 ∨ m % 3 = 1 ∨ m % 3 = 2 := by omega
  all_goals simp [bitsEvents_getElem? _ _ _ h, phaseAt, hw, hm, Phase.event]

/-- After the bits come the latch pulse and the end. -/
theorem phaseAt_after_bits (w : Nat) :
    phaseAt w (3 * w + 2) = .latchUp ∧ phaseAt w (3 * w + 3) = .latchDown ∧ phaseAt w (3 * w + 4) = .done := by
  refine ⟨?_, ?_, ?_⟩
  · rw [phaseAt, if_neg (by omega), if_neg (by omega), if_neg (by omega), if_pos (by omega)]
  · rw [phaseAt, if_neg (by omega), if_neg (by omega), if_neg (by omega), if_neg (by omega), if_pos (by omega)]
  · rw [phaseAt, if_neg (by omega), if_neg (by omega), if_neg (by omega), if_neg (by omega), if_neg (by omega)]

/-- Settles O40: the two events of the clear pulse, the bits' events, the two of the latch pulse, and no more. -/
theorem sequencerPhases : Obligations.SequencerPhases := by
  intro o n v k hk
  generalize hw : 8 * n = w at hk ⊢
  rw [shiftOutEvents_eq, hw, List.append_assoc]
  match k with
  | 0 => rfl
  | 1 => rfl
  | m + 2 =>
    show (bitsEvents (sentBit o w v) w ++ _)[m]? = _
    by_cases hm : m < 3 * w
    · rw [List.getElem?_append_left (by simpa using hm), phaseAt_bits_event o _ _ _ hm]
    · obtain ⟨hup, hdown, hdone⟩ := phaseAt_after_bits w
      obtain rfl | rfl | rfl : m = 3 * w ∨ m = 3 * w + 1 ∨ m = 3 * w + 2 := by omega
      · rw [hup]; simp [Phase.event]
      · rw [hdown]; simp [Phase.event]
      · rw [hdone]; simp [Phase.event]

/-- Settles O9: what the host's reset writes is what the statement lists. -/
theorem hostResetUnconfigures : Obligations.HostResetUnconfigures := by
  intro s rest hq hh
  exact ⟨_, step_of_reset hq hh, rfl, rfl, rfl, rfl, rfl, rfl, rfl, rfl⟩

/-- Settles O12; the refusals are those of every unconfigured controller. -/
theorem resetState : Obligations.ResetState := by
  intro p
  refine ⟨rfl, rfl, rfl, rfl, ?_⟩
  rintro i hi _ rfl
  exact exec_unconfigured rfl hi

end Sys2Proof.Machine
end

section
/-! What a read answers: bit `b` of the register lies in byte `b / 8` (20_memory.md R54). -/

namespace Sys2Proof.Machine

/-- A read whose checks pass answers its datum and does nothing else (41_read.md R143). -/
theorem exec_read {i : Instr} {s : State} (hi : isRead i = true) (hv : checkVerdict i s = none) :
    exec i s = .next (s.respond .ok (datumOf i s)) := by
  rw [exec_eq_runByTables, runByTables, hv]
  cases i with
  | rdreg | rdbyte | rdbit | pget => rfl
  | _ => cases hi

theorem exec_rdbyte_of_lt {s : State} {k : Nat} (hc : s.cfg = .configured) (hk : k < s.chainLen) :
    exec (.rdbyte k) s = .next (s.respond .ok (memRead s.shadow (8 * k) 8)) :=
  exec_read rfl ((if_pos hc).trans (indexVerdict_of_lt hk))

theorem exec_rdbit_of_lt {s : State} {b : Nat} (hc : s.cfg = .configured) (hb : b < s.width) :
    exec (.rdbit b) s = .next (s.respond .ok (memRead s.shadow b 1)) :=
  exec_read rfl ((if_pos hc).trans (indexVerdict_of_lt hb))

/-- Settles O35: the two reads answer two fields of the same shadow, compared bit by bit. -/
theorem bitLiesInByte : Obligations.BitLiesInByte := by
  intro s b hc hb
  refine ⟨_, _, exec_rdbit_of_lt hc hb, exec_rdbyte_of_lt hc (by omega), ?_, ?_, memRead_lt _ _ 8, ?_⟩
  · rw [memRead_eq, Nat.shiftRight_eq_div_pow, pow_one]
  · rw [memRead_one, testBit_memRead, Nat.div_add_mod]
    simp [Nat.mod_lt b]
  · intro j hj
    simp [testBit_memRead, hj]

end Sys2Proof.Machine
end

section
/-! The chain's reaction to one event answered `ok`, and the output pins (20_memory.md R64 to R69). -/

namespace Sys2Proof.Machine

/-! ### What an event does to the stages and the latches -/

theorem rises_of_high {ln : Lines} {sp : PerLine Bool} {l : Line} (hs : sp.get l = true) (hl : ln.get l = true) :
    rises ln sp l = false := by
  simp [rises, hs, hl]

theorem stageAfter_sckUp {ln : Lines} {sp : PerLine Bool} (h : rises ln sp .sck = true) (st : List Cell) :
    stageAfter ln sp ⟨.sck, true⟩ st = if ln.clr then shiftIn ln.ser st else zeroCells st :=
  if_pos h

/-- Only `CLR=0` and a rising `SCK` change the stages (R69). -/
theorem stageAfter_eq_self {ln : Lines} {sp : PerLine Bool} {e : LineEvent} (hclr : e ≠ ⟨.clr, false⟩)
    (hsck : e = ⟨.sck, true⟩ → rises ln sp .sck = false) (st : List Cell) : stageAfter ln sp e st = st := by
  obtain ⟨l, v⟩ := e
  cases l with
  | ser | lck | oe => rfl
  | sck =>
    cases v with
    | false => rfl
    | true => simp [stageAfter, hsck rfl]
  | clr =>
    cases v with
    | false => exact absurd rfl hclr
    | true => rfl

theorem latchAfter_lckUp {ln : Lines} {sp : PerLine Bool} (h : rises ln sp .lck = true) (st la : List Cell) :
    latchAfter ln sp ⟨.lck, true⟩ st la = st :=
  if_pos h

/-- Only a rising `LCK` changes the latches (R66, R69). -/
theorem latchAfter_eq_self {ln : Lines} {sp : PerLine Bool} {e : LineEvent}
    (hlck : e = ⟨.lck, true⟩ → rises ln sp .lck = false) (st la : List Cell) : latchAfter ln sp e st la = la := by
  obtain ⟨l, v⟩ := e
  cases l with
  | ser | sck | oe | clr => rfl
  | lck =>
    cases v with
    | false => rfl
    | true => simp [latchAfter, hlck rfl]

/-! ### The output pins (R67) -/

theorem out_of_disabled {s : State} (h : s.lines.oe = true) : ∀ p ∈ s.out, p = .highZ := by
  simp [State.out, pinOf, h]

theorem out_of_enabled {s : State} (h : s.lines.oe = false) {n : Nat} {v : Bool} (hn : s.latch[n]? = some (some v)) :
    s.out[n]? = some (.level v) := by
  simp [State.out, pinOf, h, hn]

/-- Settles O54, clause by clause: `CLR=0`, a rising `SCK`, a rising `LCK`, outputs off, outputs on. -/
theorem chainReactions : Obligations.ChainReactions := by
  intro s
  refine ⟨⟨rfl, rfl⟩, fun hsck => ?_, fun hlck => ?_, out_of_disabled, fun hoe _ _ => out_of_enabled hoe⟩
  · have hstage : (s.eventOk ⟨.sck, true⟩).stage = _ := stageAfter_sckUp ((rises_iff _ _ .sck).2 hsck) s.stage
    refine ⟨stageAfter_length s.lines s.specified ⟨.sck, true⟩ s.stage, fun hclr n hn => ?_, fun hclr => ?_, rfl⟩
    · rw [hstage, if_pos hclr, shiftIn_getElem? _ _ _ hn]
    · rw [hstage, hclr]
      rfl
  · exact ⟨latchAfter_lckUp ((rises_iff _ _ .lck).2 hlck) .., rfl⟩

/-- Settles O55: none of these events is `CLR=0`, a rising `SCK` or a rising `LCK`. -/
theorem eventsWithoutChainEffect : Obligations.EventsWithoutChainEffect := by
  intro s e h
  have hclr : e ≠ ⟨.clr, false⟩ := by
    rintro rfl
    simp at h
  have hsck : e = ⟨.sck, true⟩ → rises s.lines s.specified .sck = false := by
    rintro rfl
    obtain ⟨hs, hl⟩ : s.specified.sck = true ∧ s.lines.sck = true := by simpa using h
    exact rises_of_high hs hl
  have hlck : e = ⟨.lck, true⟩ → rises s.lines s.specified .lck = false := by
    rintro rfl
    obtain ⟨hs, hl⟩ : s.specified.lck = true ∧ s.lines.lck = true := by simpa using h
    exact rises_of_high hs hl
  exact ⟨stageAfter_eq_self hclr hsck _, latchAfter_eq_self hlck _ _⟩

end Sys2Proof.Machine
end

section
/-! What a completed write leaves in the chain, and when the shadow describes it (20_memory.md R70, R72). -/

namespace Sys2Proof.Machine

/-- Settles O57: the bit sent at step `W - 1 - s` is the one that ends in stage `s`. -/
theorem shadowBitOnEachStage : Obligations.ShadowBitOnEachStage := by
  intro w v n hn
  simp only [shiftedOutCell, if_pos hn, sentBit, show w - (w - 1 - n) = n + 1 by omega]
  refine ⟨by rw [bitOf_of_lt (by omega)], ?_⟩
  split
  · rw [bitOf_of_ge (by omega)]
  · rw [bitOf_of_lt (by omega)]

/-- An error's response is not `OK`. -/
theorem not_responded_ok_of_raise {s t : State} (h : t.responses = s.responses) (e : CmdError) (d : Nat) :
    ¬ Responded s (t.raise e) .ok d := by
  simp [Responded, h]

/-- A write answered `OK` has shifted out, without a fault, the shadow its before-events write left. -/
theorem exec_write_of_ok {i : Instr} {s t : State} (hw : isWrite i = true) (hx : exec i s = .next t)
    (hr : Responded s t .ok 0) :
    ∃ v, t = (applied (shiftOutEvents s.bitOrder s.chainLen v) (s.setShadow v)).respond .ok 0 := by
  obtain ⟨v, hb⟩ := beforeEvents_eq i s
  rcases exec_cases i s with ⟨e, -, -, h⟩ | ⟨-, u, rfl, -, h⟩ | ⟨-, u, j, e, rfl, -, -, h⟩ <;>
    obtain rfl := Host.Outcome.next.inj (h.symm.trans hx)
  · exact absurd hr (not_responded_ok_of_raise rfl e 0)
  · exact ⟨v, by rw [eventsOf_write hw, afterEvents_write hw, datumOf_write hw, hb]; rfl⟩
  · exact absurd hr (not_responded_ok_of_raise (by simp [hb]) .hardwareFault 0)

/-- Settles O56: the write's shift-out clears the stages, shifts the bits in and latches them. -/
theorem chainAfterShiftOut : Obligations.ChainAfterShiftOut := by
  intro i s t hw hready hx hr
  obtain ⟨v, rfl⟩ := exec_write_of_ok hw hx hr
  simpa using applied_shiftOut_chain s.bitOrder s.chainLen v (s.setShadow v) hready

/-- The shift-out does not drive `OE`. -/
theorem exec_write_oe {i : Instr} {s t : State} (hw : isWrite i = true) (hx : exec i s = .next t)
    (hr : Responded s t .ok 0) : t.lines.oe = s.lines.oe := by
  obtain ⟨v, rfl⟩ := exec_write_of_ok hw hx hr
  obtain ⟨-, -, hoe, -⟩ := linesAfter_shiftOut s.bitOrder s.chainLen v s.lines
  simpa using hoe

theorem shiftedOut_getElem? (o : BitOrder) (w v : Nat) {len n : Nat} (h : n < len) :
    (shiftedOut o w v len)[n]? = some (shiftedOutCell o w v n) := by
  simp [shiftedOut, h]

/-- Settles O59: the outputs stay enabled, and the latches hold R70's pattern (O56). -/
theorem writeLeavesInSync : Obligations.WriteLeavesInSync := by
  intro i s t hw hoe hready hx hr
  obtain ⟨-, hlatch⟩ := chainAfterShiftOut i s t hw hready hx hr
  refine ⟨(exec_write_oe hw hx hr).trans hoe, fun n _ hn => ?_⟩
  rw [hlatch] at hn ⊢
  exact shiftedOut_getElem? _ _ _ (by simpa [shiftedOut] using hn)

end Sys2Proof.Machine
end

section
/-! No partial pattern reaches the latches or the pins during a shift-out (20_memory.md R60, R71). -/

namespace Sys2Proof.Machine

/-- Events that do not drive `LCK` leave the latches. -/
theorem applied_latch_of_not_lck {es : List LineEvent} (h : ∀ e ∈ es, e.line ≠ .lck) (s : State) :
    (applied es s).latch = s.latch := by
  induction es generalizing s with
  | nil => rfl
  | cons e es ih =>
    rw [List.forall_mem_cons] at h
    rw [applied_cons, ih h.2]
    exact latchAfter_eq_self (fun he => absurd (congrArg LineEvent.line he) h.1) _ _

/-- Events that do not drive `OE` leave the pins of the same latches. -/
theorem applied_out_of_not_oe {es : List LineEvent} (h : ∀ e ∈ es, e.line ≠ .oe) (s : State) :
    (applied es s).out = (applied es s).latch.map (pinOf s.lines.oe) := by
  rw [State.out, applied_lines]
  exact congrArg (fun oe => (applied es s).latch.map (pinOf oe)) (after_of_not_driven h s.lines s.specified).1

/-- The events of a shift-out before its latch pulse. -/
def shiftOutBody (o : BitOrder) (n v : Nat) : List LineEvent :=
  [⟨.clr, false⟩, ⟨.clr, true⟩] ++ bitsEvents (sentBit o (8 * n) v) (8 * n)

theorem shiftOutEvents_eq_body (o : BitOrder) (n v : Nat) :
    shiftOutEvents o n v = shiftOutBody o n v ++ [⟨.lck, true⟩, ⟨.lck, false⟩] := rfl

theorem shiftOutBody_length (o : BitOrder) (n v : Nat) : (shiftOutBody o n v).length = 2 + 3 * (8 * n) := by
  rw [shiftOutBody, List.length_append, bitsEvents_length]
  rfl

/-- Before the latch pulse neither `LCK` nor `OE` is driven. -/
theorem line_of_mem_shiftOutBody {o : BitOrder} {n v : Nat} {e : LineEvent} (h : e ∈ shiftOutBody o n v) :
    e.line ≠ .lck ∧ e.line ≠ .oe := by
  rcases List.mem_append.1 h with h | h
  · simp only [List.mem_cons, List.not_mem_nil, or_false] at h
    rcases h with rfl | rfl <;> simp
  · rcases line_of_mem_bitsEvents h with h | h <;> simp [h]

/-- No event of a shift-out drives `OE`. -/
theorem line_ne_oe_of_mem_shiftOut {o : BitOrder} {n v : Nat} {e : LineEvent} (h : e ∈ shiftOutEvents o n v) :
    e.line ≠ .oe := by
  rw [shiftOutEvents_eq_body, List.mem_append] at h
  rcases h with h | h
  · exact (line_of_mem_shiftOutBody h).2
  · simp only [List.mem_cons, List.not_mem_nil, or_false] at h
    rcases h with rfl | rfl <;> simp

theorem take_shiftOut_of_le (o : BitOrder) (n v : Nat) {j : Nat} (h : j ≤ 2 + 3 * (8 * n)) :
    (shiftOutEvents o n v).take j = (shiftOutBody o n v).take j := by
  rw [shiftOutEvents_eq_body, List.take_append_of_le_length (by rwa [shiftOutBody_length])]

/-- Past the body stand `LCK=1` and at most one further event, which is `LCK=0`. -/
theorem take_shiftOut_of_lt (o : BitOrder) (n v : Nat) {j : Nat} (h : 2 + 3 * (8 * n) < j) :
    ∃ m, (shiftOutEvents o n v).take j = shiftOutBody o n v ++ ⟨.lck, true⟩ :: [⟨.lck, false⟩].take m := by
  refine ⟨j - (2 + 3 * (8 * n)) - 1, ?_⟩
  obtain ⟨m, rfl⟩ := Nat.exists_eq_add_of_lt h
  rw [shiftOutEvents_eq_body, List.take_append, shiftOutBody_length,
    List.take_of_length_le (by rw [shiftOutBody_length]; omega),
    show 2 + 3 * (8 * n) + m + 1 - (2 + 3 * (8 * n)) = m + 1 by omega]
  rfl

/-- A rising `LCK` copies the stages to the latches; the `LCK=0` that may follow changes neither. -/
theorem applied_latchPulse {s : State} (h : rises s.lines s.specified .lck = true) (m : Nat) :
    (applied (⟨.lck, true⟩ :: [⟨.lck, false⟩].take m) s).latch = s.stage ∧
    (applied (⟨.lck, true⟩ :: [⟨.lck, false⟩].take m) s).stage = s.stage := by
  have hup := latchAfter_lckUp h s.stage s.latch
  cases m with
  | zero => exact ⟨hup, rfl⟩
  | succ m =>
    rw [List.take_succ_cons, List.take_nil]
    exact ⟨hup, rfl⟩

/-- Settles O58: no event before `LCK=1` drives `LCK`, and none drives `OE`. -/
theorem noPartialPattern : Obligations.NoPartialPattern := by
  intro s o n v j hlck hok hj
  have hoe : ∀ e ∈ (shiftOutEvents o n v).take j, e.line ≠ .oe :=
    fun _ he => line_ne_oe_of_mem_shiftOut (List.mem_of_mem_take he)
  have hout := applied_out_of_not_oe hoe s
  refine ⟨_, emit_of_allOk (hok.mono (List.length_take_le _ _)), fun hle => ?_, fun hlt => ?_⟩
  · have hlatch : (applied ((shiftOutEvents o n v).take j) s).latch = s.latch := by
      rw [take_shiftOut_of_le o n v hle]
      exact applied_latch_of_not_lck (fun _ he => (line_of_mem_shiftOutBody (List.mem_of_mem_take he)).1) s
    exact ⟨hlatch, by rw [hout, hlatch]; rfl⟩
  · have hbody : ∀ e ∈ shiftOutBody o n v, e.line ≠ .lck := fun _ he => (line_of_mem_shiftOutBody he).1
    obtain ⟨hline, hspec⟩ := after_of_not_driven hbody s.lines s.specified
    have hrise : rises (applied (shiftOutBody o n v) s).lines (applied (shiftOutBody o n v) s).specified .lck = true := by
      rw [applied_lines, applied_specified]
      exact (rises_iff _ _ _).2 (by rw [hline, hspec]; exact hlck)
    obtain ⟨m, hm⟩ := take_shiftOut_of_lt o n v hlt
    obtain ⟨hlatch, hstage⟩ := applied_latchPulse hrise m
    rw [← applied_append, ← hm] at hlatch hstage
    refine ⟨hlatch.trans hstage.symm, by rw [hout, hlatch, hstage], _,
      emit_of_allOk (hok.mono ((List.length_take_le _ _).trans hlt.le)), ?_⟩
    rw [hlatch, take_shiftOut_of_le o n v le_rfl, List.take_of_length_le (shiftOutBody_length o n v).le]

end Sys2Proof.Machine
end

section
/-! SUPPORT. The decoder said once: which of R91's three forms the opcode gives a word, what each form asks of the other
fields, and what a decoded command says of the beat (spec/30_encoding.md R91 to R98). -/

namespace Sys2Proof

/-! ### Well-formedness by operand (R102) -/

/-- A command can be encoded exactly when its index fits the field and its value fits the data operand, if it has them. -/
theorem wellFormed_iff (p : Params) (i : Instr) :
    i.wellFormed p = true ↔
      (∀ k, Machine.encodedIndex i = some k → fitsInt16 k = true) ∧
      (∀ v, Machine.encodedValue i = some v → fitsData p v = true) := by
  cases i <;> simp [Instr.wellFormed, Machine.encodedIndex, Machine.encodedValue, and_comm]

/-- The data operand carries the command's value; where there is none it is written as 0. -/
theorem encode_cd (i : Instr) : (encode i).cd = (Machine.encodedValue i).getD 0 := by
  cases i <;> rfl

/-! ### The three forms of a word (R91) -/

theorem decodeConfig_error_iff (cw : CmdWord) : (∃ e, decodeConfig cw = .error e) ↔ zField cw ≠ 0 := by
  by_cases hz : zField cw = 0#10 <;> simp [decodeConfig, hz]

theorem decodeBare_error_iff (cw : CmdWord) (i : Instr) :
    (∃ e, decodeBare cw i = .error e) ↔ zField cw ≠ 0 ∨ orderField cw ≠ 0 ∨ lowField cw ≠ 0 := by
  by_cases hz : zField cw = 0#10 <;> by_cases ho : orderField cw = 0#2 <;> by_cases hl : lowField cw = 0#16 <;>
    simp [decodeBare, hz, ho, hl]

theorem decodeIndexed_error_iff (cw : CmdWord) (mk : Int → Instr) :
    (∃ e, decodeIndexed cw mk = .error e) ↔ zField cw ≠ 0 ∨ orderField cw ≠ 0 := by
  by_cases hz : zField cw = 0#10 <;> by_cases ho : orderField cw = 0#2 <;> simp [decodeIndexed, hz, ho]

theorem decodeConfig_ok {cw : CmdWord} {i : Instr} (h : decodeConfig cw = .ok i) :
    cw = encodeWord (opField cw) (orderField cw) (lowField cw) ∧
    i = .config (int16 (lowField cw)) (orderField cw) := by
  unfold decodeConfig at h
  split_ifs at h with hz
  exact ⟨(encodeWord_fields (not_not.1 hz)).symm, (Except.ok.inj h).symm⟩

theorem decodeBare_ok {cw : CmdWord} {i j : Instr} (h : decodeBare cw i = .ok j) :
    cw = encodeWord (opField cw) 0 0 ∧ j = i := by
  unfold decodeBare at h
  split_ifs at h with hz ho hl
  have hcw := encodeWord_fields (not_not.1 hz)
  rw [not_not.1 ho, not_not.1 hl] at hcw
  exact ⟨hcw.symm, (Except.ok.inj h).symm⟩

theorem decodeIndexed_ok {cw : CmdWord} {mk : Int → Instr} {j : Instr} (h : decodeIndexed cw mk = .ok j) :
    cw = encodeWord (opField cw) 0 (lowField cw) ∧ j = mk (int16 (lowField cw)) := by
  unfold decodeIndexed at h
  split_ifs at h with hz ho
  have hcw := encodeWord_fields (not_not.1 hz)
  rw [not_not.1 ho] at hcw
  exact ⟨hcw.symm, (Except.ok.inj h).symm⟩

/-- The opcodes of the commands without an index: CLEAR, RDREG, WRREG, REFRESH (R96). -/
abbrev BareOp (op : BitVec 4) : Prop := op = 2 ∨ op = 3 ∨ op = 6 ∨ op = 7

/-- The form in which the beat is decoded, by its opcode, with what the command or commands of that form encode to. -/
inductive DecodeForm (b : Beat) : Prop
  | reserved (hop : opField b.cw = 0 ∨ opField b.cw = 15) (hd : decode b = .error .reservedOp)
  | config (hop : opField b.cw = 1) (hd : decode b = decodeConfig b.cw)
  | bare {op : BitVec 4} {i : Instr} (hop : opField b.cw = op) (hd : decode b = decodeBare b.cw i)
      (hform : BareOp op := by decide)
      (hword : (encode i).cw = encodeWord op 0 0 := by rfl)
      (hindex : Machine.encodedIndex i = none := by rfl)
      (hvalue : (Machine.encodedValue i).getD b.cd = b.cd := by rfl)
  | indexed {op : BitVec 4} {mk : Int → Instr} (hop : opField b.cw = op) (hd : decode b = decodeIndexed b.cw mk)
      (hform : ¬ BareOp op ∧ op ≠ 0 ∧ op ≠ 1 ∧ op ≠ 15 := by decide)
      (hword : ∀ k, (encode (mk k)).cw = encodeWord op 0 (field16 k) := by exact fun _ => rfl)
      (hindex : ∀ k, Machine.encodedIndex (mk k) = some k := by exact fun _ => rfl)
      (hvalue : ∀ k, (Machine.encodedValue (mk k)).getD b.cd = b.cd := by exact fun _ => rfl)

theorem opField_eq_ofNat {cw : CmdWord} {n : Nat} (h : (opField cw).toNat = n) : opField cw = BitVec.ofNat 4 n := by
  simp [← h]

theorem decodeForm (b : Beat) : DecodeForm b := by
  match hn : (opField b.cw).toNat with
  | 0 => exact .reserved (.inl (opField_eq_ofNat hn)) (by simp only [decode, hn])
  | 1 => exact .config (opField_eq_ofNat hn) (by simp only [decode, hn])
  | 2 => exact .bare (i := .clear) (opField_eq_ofNat hn) (by simp only [decode, hn])
  | 3 => exact .bare (i := .rdreg) (opField_eq_ofNat hn) (by simp only [decode, hn])
  | 4 => exact .indexed (mk := .rdbyte) (opField_eq_ofNat hn) (by simp only [decode, hn])
  | 5 => exact .indexed (mk := .rdbit) (opField_eq_ofNat hn) (by simp only [decode, hn])
  | 6 => exact .bare (i := .wrreg b.cd) (opField_eq_ofNat hn) (by simp only [decode, hn])
  | 7 => exact .bare (i := .refresh) (opField_eq_ofNat hn) (by simp only [decode, hn])
  | 8 => exact .indexed (mk := .wrbyte b.cd) (opField_eq_ofNat hn) (by simp only [decode, hn])
  | 9 => exact .indexed (mk := .wrbit b.cd) (opField_eq_ofNat hn) (by simp only [decode, hn])
  | 10 => exact .indexed (mk := .pget) (opField_eq_ofNat hn) (by simp only [decode, hn])
  | 11 => exact .indexed (mk := (.pset · b.cd)) (opField_eq_ofNat hn) (by simp only [decode, hn])
  | 12 => exact .indexed (mk := .ptgl) (opField_eq_ofNat hn) (by simp only [decode, hn])
  | 13 => exact .indexed (mk := .pon) (opField_eq_ofNat hn) (by simp only [decode, hn])
  | 14 => exact .indexed (mk := .poff) (opField_eq_ofNat hn) (by simp only [decode, hn])
  | 15 => exact .reserved (.inr (opField_eq_ofNat hn)) (by simp only [decode, hn])
  | n + 16 => exact absurd (opField b.cw).isLt (by omega)

/-! ### What is decoded, and what is illegal -/

/-- A legal beat's word is the word of the command it decodes to; the command carries the data operand if it has a
value, and its index, if it has one, is the one the low field spells. -/
theorem encode_of_decode {b : Beat} {i : Instr} (h : decode b = .ok i) :
    (encode i).cw = b.cw ∧ (Machine.encodedValue i).getD b.cd = b.cd ∧
    ∀ k, Machine.encodedIndex i = some k → k = int16 (lowField b.cw) := by
  cases decodeForm b with
  | reserved _ hd => cases hd.symm.trans h
  | config hop hd =>
    obtain ⟨hcw, rfl⟩ := decodeConfig_ok (hd.symm.trans h)
    refine ⟨?_, rfl, fun k hk => (Option.some.inj hk).symm⟩
    rw [hop] at hcw
    simp only [encode, field16_int16]
    exact hcw.symm
  | bare hop hd _ hword hindex hvalue =>
    obtain ⟨hcw, rfl⟩ := decodeBare_ok (hd.symm.trans h)
    refine ⟨?_, hvalue, fun k hk => ?_⟩
    · rw [hword, ← hop, ← hcw]
    · cases hindex.symm.trans hk
  | indexed hop hd _ hword hindex hvalue =>
    obtain ⟨hcw, rfl⟩ := decodeIndexed_ok (hd.symm.trans h)
    refine ⟨?_, hvalue _, fun k hk => ?_⟩
    · rw [hword, field16_int16, ← hop, ← hcw]
    · exact Option.some.inj (hk.symm.trans (hindex _))

/-- The words R98 calls illegal. -/
def IllegalWord (cw : CmdWord) : Prop :=
  opField cw = 0 ∨ opField cw = 15 ∨ zField cw ≠ 0 ∨ (opField cw ≠ 1 ∧ orderField cw ≠ 0) ∨
    (BareOp (opField cw) ∧ lowField cw ≠ 0)

theorem decode_error_iff (b : Beat) : (∃ e, decode b = .error e) ↔ IllegalWord b.cw := by
  unfold IllegalWord
  cases decodeForm b with
  | reserved hop hd =>
    rcases hop with hop | hop <;> simp [hd, hop]
  | config hop hd =>
    rw [hd, decodeConfig_error_iff]
    simp [hop]
  | bare hop hd hform =>
    rw [hd, decodeBare_error_iff, hop]
    rcases hform with rfl | rfl | rfl | rfl <;> simp [BareOp]
  | indexed hop hd hform =>
    obtain ⟨hbare, h0, h1, h15⟩ := hform
    rw [hd, decodeIndexed_error_iff, hop]
    simp only [hbare, h0, h1, h15, ne_eq, not_false_eq_true, true_and, false_and, false_or, or_false]

end Sys2Proof
end

section
/-! Decoding and encoding are inverse to each other, and which words are illegal (spec/30_encoding.md R91 to R98, R102). -/

namespace Sys2Proof

theorem decodeConfig_encodeWord (op : BitVec 4) (o : BitVec 2) {k : Int} (hk : fitsInt16 k = true) :
    decodeConfig (encodeWord op o (field16 k)) = .ok (.config k o) := by
  simp [decodeConfig, int16_field16 hk]

theorem decodeBare_encodeWord (op : BitVec 4) (i : Instr) : decodeBare (encodeWord op 0 0) i = .ok i := by
  simp only [decodeBare, zField_encodeWord, orderField_encodeWord, lowField_encodeWord, ne_eq, not_true, if_false]

theorem decodeIndexed_encodeWord (op : BitVec 4) {k : Int} (hk : fitsInt16 k = true) (mk : Int → Instr) :
    decodeIndexed (encodeWord op 0 (field16 k)) mk = .ok (mk k) := by
  simp [decodeIndexed, int16_field16 hk]

/-- Settles O2: the opcode of each row leads back to its form, and each form reads back the fields it was assembled
from. -/
theorem decodeOfEncode : Obligations.DecodeOfEncode := by
  intro p i h
  obtain ⟨hindex, -⟩ := (wellFormed_iff p i).1 h
  cases i with
  | config len order => simpa [encode, decode] using decodeConfig_encodeWord 1 order (hindex len rfl)
  | clear => rfl
  | rdreg => rfl
  | wrreg v => simpa [encode, decode] using decodeBare_encodeWord 6 (.wrreg v)
  | refresh => rfl
  | rdbyte k => simpa [encode, decode] using decodeIndexed_encodeWord 4 (hindex k rfl) .rdbyte
  | rdbit b => simpa [encode, decode] using decodeIndexed_encodeWord 5 (hindex b rfl) .rdbit
  | wrbyte y k => simpa [encode, decode] using decodeIndexed_encodeWord 8 (hindex k rfl) (.wrbyte y)
  | wrbit st b => simpa [encode, decode] using decodeIndexed_encodeWord 9 (hindex b rfl) (.wrbit st)
  | pget q => simpa [encode, decode] using decodeIndexed_encodeWord 10 (hindex q rfl) .pget
  | pset q st => simpa [encode, decode] using decodeIndexed_encodeWord 11 (hindex q rfl) (.pset · st)
  | ptgl q => simpa [encode, decode] using decodeIndexed_encodeWord 12 (hindex q rfl) .ptgl
  | pon q => simpa [encode, decode] using decodeIndexed_encodeWord 13 (hindex q rfl) .pon
  | poff q => simpa [encode, decode] using decodeIndexed_encodeWord 14 (hindex q rfl) .poff

/-- Settles O3: the operands of the decoded command are the fields of the beat. -/
theorem encodeOfDecode : Obligations.EncodeOfDecode := by
  intro p b i hb h
  obtain ⟨hcw, hvalue, hindex⟩ := encode_of_decode h
  refine ⟨hcw, ?_, (wellFormed_iff p i).2 ⟨fun k hk => ?_, fun v hv => ?_⟩⟩
  · rw [encode_cd]
    cases hv : Machine.encodedValue i with
    | none => exact .inr rfl
    | some v =>
      rw [hv] at hvalue
      exact .inl hvalue
  · rw [hindex k hk]
    exact fitsInt16_int16 _
  · rw [hv] at hvalue
    obtain rfl : v = b.cd := hvalue
    exact hb

/-- Settles O5: each form is illegal where a field it asks to be zero is not, and an illegal beat only raises its error. -/
theorem illegalEncodings : Obligations.IllegalEncodings := by
  intro b
  refine ⟨decode_error_iff b, ?_⟩
  rintro ⟨e, he⟩ s
  exact Machine.takeBeat_of_illegal he s

end Sys2Proof
end

section
/-! The decoder follows the opcode map (spec/30_encoding.md R96, R97): a match fixes the fields a row asks for, so the word is
legal, and a decoded word matches the row of its command. -/

namespace Sys2Proof

/-- Every command's encoding spells the row of its mnemonic. -/
theorem encodesRow (i : Instr) : Laws.EncodesRow.Statement i := by
  cases i with
  | config len order => exact Laws.EncodesRow.config len order
  | clear => exact Laws.EncodesRow.clear
  | rdreg => exact Laws.EncodesRow.rdreg
  | rdbyte k => exact Laws.EncodesRow.rdbyte k
  | rdbit b => exact Laws.EncodesRow.rdbit b
  | wrreg v => exact Laws.EncodesRow.wrreg v
  | refresh => exact Laws.EncodesRow.refresh
  | wrbyte y k => exact Laws.EncodesRow.wrbyte y k
  | wrbit st b => exact Laws.EncodesRow.wrbit st b
  | pget q => exact Laws.EncodesRow.pget q
  | pset q st => exact Laws.EncodesRow.pset q st
  | ptgl q => exact Laws.EncodesRow.ptgl q
  | pon q => exact Laws.EncodesRow.pon q
  | poff q => exact Laws.EncodesRow.poff q

/-- A decoded word matches the row of its command. -/
theorem matches_of_decode {b : Beat} {i : Instr} (h : decode b = .ok i) :
    ∃ r ∈ opcodeTable, r.mnemonic = i.mnemonic ∧ r.Matches b.cw := by
  obtain ⟨hcw, -, -⟩ := encode_of_decode h
  exact hcw ▸ encodesRow i

/-- The fields of a row's match are those of the word, cut to the row's mask. -/
theorem fields_of_matches {r : OpcodeRow} {cw : CmdWord} (h : r.Matches cw) :
    opField cw &&& opField r.mask = opField r.pattern ∧ zField cw &&& zField r.mask = zField r.pattern ∧
    orderField cw &&& orderField r.mask = orderField r.pattern ∧
    lowField cw &&& lowField r.mask = lowField r.pattern := by
  simp only [OpcodeRow.Matches] at h
  simp only [← h, opField, zField, orderField, lowField, BitVec.extractLsb'_and, and_self]

/-- What the rows fix: the opcode and `Z` in every row, `ORDER` in every row but CONFIG's, the low field in the rows
without an index. -/
theorem opcodeTable_fields : ∀ r ∈ opcodeTable,
    (opField r.mask = BitVec.allOnes 4 ∧ opField r.pattern ≠ 0 ∧ opField r.pattern ≠ 15) ∧
    (zField r.mask = BitVec.allOnes 10 ∧ zField r.pattern = 0) ∧
    (opField r.pattern ≠ 1 → orderField r.mask = BitVec.allOnes 2 ∧ orderField r.pattern = 0) ∧
    (BareOp (opField r.pattern) → lowField r.mask = BitVec.allOnes 16 ∧ lowField r.pattern = 0) := by
  decide

theorem opcodeTable_inj : ∀ r ∈ opcodeTable, ∀ r' ∈ opcodeTable,
    opField r.pattern = opField r'.pattern ∨ r.mnemonic = r'.mnemonic → r = r' := by
  decide

theorem opField_of_matches {r : OpcodeRow} {cw : CmdWord} (hr : r ∈ opcodeTable) (h : r.Matches cw) :
    opField cw = opField r.pattern := by
  obtain ⟨hop, -⟩ := fields_of_matches h
  obtain ⟨⟨hmask, -⟩, -⟩ := opcodeTable_fields r hr
  rwa [hmask, BitVec.and_allOnes] at hop

/-- No word matches two rows: the opcodes differ. -/
theorem matches_unique {r r' : OpcodeRow} {cw : CmdWord} (hr : r ∈ opcodeTable) (hr' : r' ∈ opcodeTable)
    (h : r.Matches cw) (h' : r'.Matches cw) : r = r' :=
  opcodeTable_inj r hr r' hr' (.inl ((opField_of_matches hr h).symm.trans (opField_of_matches hr' h')))

/-- A word that matches a row is legal. -/
theorem not_illegalWord_of_matches {r : OpcodeRow} {cw : CmdWord} (hr : r ∈ opcodeTable) (h : r.Matches cw) :
    ¬ IllegalWord cw := by
  obtain ⟨-, hz, ho, hl⟩ := fields_of_matches h
  obtain ⟨⟨-, h0, h15⟩, ⟨hzm, hzp⟩, hom, hlm⟩ := opcodeTable_fields r hr
  have hop := opField_of_matches hr h
  rw [IllegalWord, hop]
  rintro (hbad | hbad | hbad | ⟨h1, hbad⟩ | ⟨hb, hbad⟩)
  · exact h0 hbad
  · exact h15 hbad
  · rw [hzm, hzp, BitVec.and_allOnes] at hz
    exact hbad hz
  · obtain ⟨hm, hp⟩ := hom h1
    rw [hm, hp, BitVec.and_allOnes] at ho
    exact hbad ho
  · obtain ⟨hm, hp⟩ := hlm hb
    rw [hm, hp, BitVec.and_allOnes] at hl
    exact hbad hl

/-- A word decodes to a command of the row it matches. -/
theorem decode_of_matches {r : OpcodeRow} {b : Beat} (hr : r ∈ opcodeTable) (h : r.Matches b.cw) :
    ∃ i, decode b = .ok i ∧ i.mnemonic = r.mnemonic := by
  cases hd : decode b with
  | error e => exact absurd ((decode_error_iff b).1 ⟨e, hd⟩) (not_illegalWord_of_matches hr h)
  | ok i =>
    obtain ⟨r', hr', hmn, hm⟩ := matches_of_decode hd
    exact ⟨i, rfl, by rw [matches_unique hr hr' h hm, hmn]⟩

/-- Settles O4: a match and a decoding lead to each other, and the opcode tells the rows apart. -/
theorem decodeFollowsOpcodeMap : Obligations.DecodeFollowsOpcodeMap := by
  intro b
  refine ⟨fun r hr => ⟨decode_of_matches hr, ?_⟩, ⟨?_, fun hnone => ?_⟩,
    fun r hr r' hr' => matches_unique hr hr'⟩
  · rintro ⟨i, hd, hi⟩
    obtain ⟨r', hr', hmn, hm⟩ := matches_of_decode hd
    rwa [opcodeTable_inj r hr r' hr' (.inr (hi.symm.trans hmn.symm))]
  · rintro ⟨e, he⟩ r hr hm
    obtain ⟨i, hi, -⟩ := decode_of_matches hr hm
    cases he.symm.trans hi
  · cases hd : decode b with
    | error e => exact ⟨e, rfl⟩
    | ok i =>
      obtain ⟨r, hr, -, hm⟩ := matches_of_decode hd
      exact absurd hm (hnone r hr)

end Sys2Proof
end

section
/-! The encoded examples and the assembler (spec/30_encoding.md R97, R102, R105, R106). -/

namespace Sys2Proof

/-- The command with the data operand `cd` in the place of its value, if it has one (R95). -/
def Instr.carrying (cd : Nat) : Instr → Instr
  | .wrreg _ => .wrreg cd
  | .wrbyte _ k => .wrbyte cd k
  | .wrbit _ b => .wrbit cd b
  | .pset q _ => .pset q cd
  | i => i

theorem decodeConfig_map_carrying (cw : CmdWord) (cd : Nat) :
    (decodeConfig cw).map (Instr.carrying cd) = decodeConfig cw := by
  unfold decodeConfig
  split_ifs <;> rfl

theorem decodeBare_map (cw : CmdWord) (i : Instr) (f : Instr → Instr) :
    (decodeBare cw i).map f = decodeBare cw (f i) := by
  unfold decodeBare
  split_ifs <;> rfl

theorem decodeIndexed_map (cw : CmdWord) (mk : Int → Instr) (f : Instr → Instr) :
    (decodeIndexed cw mk).map f = decodeIndexed cw fun k => f (mk k) := by
  unfold decodeIndexed
  split_ifs <;> rfl

theorem reserved_map (e : Illegal) (f : Instr → Instr) :
    (Except.error e : Except Illegal Instr).map f = .error e := rfl

/-- `CD` is only carried along (R97). -/
theorem decode_eq_map_carrying (cw : CmdWord) (cd : Nat) :
    decode ⟨cw, cd⟩ = (decode ⟨cw, 0⟩).map (Instr.carrying cd) := by
  have hlt := (opField cw).isLt
  unfold decode
  dsimp only
  generalize (opField cw).toNat = n at hlt ⊢
  interval_cases n <;>
    simp only [decodeConfig_map_carrying, decodeBare_map, decodeIndexed_map, reserved_map, Instr.carrying]

theorem decode_error_of_cw {cw : CmdWord} {e : Illegal} (h : decode ⟨cw, 0⟩ = .error e) (cd : Nat) :
    decode ⟨cw, cd⟩ = .error e := by
  rw [decode_eq_map_carrying, h]
  rfl

theorem decode_ok_of_cw {cw : CmdWord} {i : Instr} (h : decode ⟨cw, 0⟩ = .ok i) (cd : Nat) :
    decode ⟨cw, cd⟩ = .ok (i.carrying cd) := by
  rw [decode_eq_map_carrying, h]
  rfl

/-- Settles O1: the words are decoded with the data operand 0, which the others only replace (R97). -/
theorem encodedExamplesDecode : Obligations.EncodedExamplesDecode := by
  refine ⟨by decide, fun cd => ?_, by decide⟩
  exact ⟨decode_error_of_cw (by decide) cd, decode_error_of_cw (by decide) cd, decode_error_of_cw (by decide) cd,
    decode_error_of_cw (by decide) cd, decode_error_of_cw (by decide) cd, decode_error_of_cw (by decide) cd,
    decode_error_of_cw (by decide) cd, decode_ok_of_cw (i := .clear) (by decide) cd,
    decode_ok_of_cw (i := .rdbit 0) (by decide) cd, decode_ok_of_cw (i := .config 1 0) (by decide) cd,
    decode_ok_of_cw (i := .wrreg 0) (by decide) cd, decode_ok_of_cw (i := .refresh) (by decide) cd,
    decode_ok_of_cw (i := .rdreg) (by decide) cd⟩

theorem assemble_full_eq_none_iff (p : Params) (i : Instr) :
    assemble p (.full i) = none ↔ ¬ i.wellFormed p = true := by
  unfold assemble AsmForm.expand
  split_ifs with h <;> simp [h]

theorem assemble_full_eq_some {p : Params} {i : Instr} {b : Beat} (h : assemble p (.full i) = some b) : b = encode i := by
  obtain ⟨-, h⟩ := Option.ite_none_right_eq_some.1 h
  exact (Option.some.inj h).symm

/-- Settles O6: the assembler refuses exactly the commands that are not well-formed. -/
theorem assemblerForms : Obligations.AssemblerForms := by
  intro p
  refine ⟨rfl, rfl, rfl, fun _ => rfl, fun i => ?_, fun _ _ => assemble_full_eq_some⟩
  rw [assemble_full_eq_none_iff, wellFormed_iff]
  simp only [not_and_or, not_forall, fitsInt16, fitsData, Bool.and_eq_true, decide_eq_true_eq, not_le,
    not_lt, exists_prop]

end Sys2Proof
end

section
/-! What a command and a step of a busy controller add to the responses (spec/30_encoding.md R99, R107,
spec/60_exceptions.md R200, R213), and the pin commands as the driver's (R108). -/

namespace Sys2Proof.Machine

/-- Finishing a command adds its one response and frees the sequencer. -/
theorem seqFinish_responds (i : Instr) (s : State) :
    (seqFinish i s).host = s.host ∧ (seqFinish i s).seq = .idle ∧
    (seqFinish i s).responses = s.responses ++ [⟨.ok, datumOf i s⟩] := by
  obtain ⟨-, -, hhost, -, -, -, -, hresp, -⟩ := afterEvents_same i s
  simp [seqFinish, hhost, hresp]

/-- Settles O11: the three things a busy sequencer can do. -/
theorem busyTakesNoBeat : Obligations.BusyTakesNoBeat := by
  intro s i k hq
  refine ⟨_, step_of_busy hq, ?_⟩
  rcases seqAdvance_cases i k s with ⟨e, -, hx⟩ | ⟨e, -, hx⟩ | ⟨-, hx⟩ <;> rw [hx]
  · exact ⟨rfl, .inl ⟨rfl, rfl, e, rfl⟩⟩
  · exact ⟨rfl, .inr ⟨rfl, _, rfl⟩⟩
  · obtain ⟨hhost, hseq, hresp⟩ := seqFinish_responds i s
    exact ⟨hhost, .inr ⟨hseq, _, hresp⟩⟩

/-- Settles O28: a command refused by its checks only responds, one that completes answers OK, one cut short answers
HardwareFault. -/
theorem errorsArePrecise : Obligations.ErrorsArePrecise := by
  intro i s
  obtain ⟨v, hb⟩ := beforeEvents_eq i s
  rcases exec_cases i s with ⟨e, -, -, hx⟩ | ⟨-, u, rfl, -, hx⟩ | ⟨-, u, j, e, rfl, -, -, hx⟩
  · exact ⟨_, ⟨e.code, 0⟩, hx, rfl, fun _ => rfl, fun _ _ => rfl⟩
  · obtain ⟨-, -, -, -, -, -, -, hresp, -⟩ :=
      afterEvents_same i (applied (eventsOf i (beforeEvents i s)) (beforeEvents i s))
    refine ⟨_, ⟨.ok, datumOf i (beforeEvents i s)⟩, hx, ?_, fun h => absurd rfl h, fun h => absurd rfl h⟩
    rw [State.respond_responses, hresp]
    simp [hb]
  · exact ⟨_, ⟨.hardwareFault, 0⟩, hx, by simp [hb, CmdError.code], fun _ => rfl, fun _ h => absurd rfl h⟩

/-- Settles O47: each pin command is defined by the driver's operation, with the state operand 1 or 0 already one bit. -/
theorem facadeDelegates : Obligations.FacadeDelegates :=
  fun _ _ _ => ⟨rfl, rfl, rfl, rfl⟩

end Sys2Proof.Machine
end

section
/-! SUPPORT. What a command that writes nothing before its events does, by its verdict and its answers (spec/10_state.md
R33), and the whole state after events answered `ok`. -/

namespace Sys2Proof.Machine

/-- A refused command only responds. -/
theorem exec_of_refused {i : Instr} {s : State} {e : CmdError} (h : checkVerdict i s = some e) :
    exec i s = .next (s.raise e) := by
  rw [exec_eq_runByTables, runByTables, h]

theorem exec_eq_driveThen {i : Instr} {s : State} (hv : checkVerdict i s = none) (hb : beforeEvents i s = s) :
    exec i s = .next (driveThen (eventsOf i s) (afterEvents i) (datumOf i s) s) := by
  rw [exec_eq_runByTables, runByTables, hv, hb]

theorem exec_of_allOk {i : Instr} {s : State} (hv : checkVerdict i s = none) (hb : beforeEvents i s = s)
    (h : AllOk s (eventsOf i s).length) :
    exec i s = .next ((afterEvents i (applied (eventsOf i s) s)).respond .ok (datumOf i s)) :=
  (exec_eq_driveThen hv hb).trans (congrArg _ (driveThen_of_allOk _ _ h))

/-- Cut short, such a command leaves the registers as they were (60_exceptions.md R207, R208). -/
theorem exec_of_firstFail {i : Instr} {s : State} {j : Nat} (hv : checkVerdict i s = none) (hb : beforeEvents i s = s)
    (h : FirstFail s (eventsOf i s).length j) :
    ∃ t, exec i s = .next t ∧ Responded s t .hardwareFault 0 ∧ CutShort s t (eventsOf i s) j ∧
      SameConfiguration s t ∧ t.shadow = s.shadow ∧ SameSurroundings s t := by
  obtain ⟨e, he, hd⟩ := driveThen_of_firstFail (afterEvents i) (datumOf i s) h
  have hx := (exec_eq_driveThen hv hb).trans (congrArg Host.Outcome.next hd)
  refine ⟨_, hx, ?_, cutShort_applied he, ?_, ?_, exec_sameSurroundings hx⟩
  · simp [Responded, CmdError.code]
  · simp [SameConfiguration]
  · simp

theorem emitted_applied (es : List LineEvent) (s : State) : Emitted s (applied es s) es := by
  simp [Emitted]

/-- Events answered `ok` write the trace, the lines and the environment's position; the chain reacts. -/
theorem applied_eq (es : List LineEvent) (s : State) :
    applied es s = { s with
      events := s.events ++ es
      lines := linesAfter s.lines es
      specified := specifiedAfter s.specified es
      answers := s.answers.drop es.length
      fresh := s.fresh + es.length
      stage := (applied es s).stage
      latch := (applied es s).latch } := by
  induction es generalizing s with
  | nil => simp [linesAfter, specifiedAfter]
  | cons e es ih =>
    rw [applied_cons, ih]
    simp [linesAfter, specifiedAfter, State.eventOk, Nat.add_comm, Nat.add_left_comm]

end Sys2Proof.Machine
end

section
/-! CONFIG (spec/40_construction_and_clear.md R120 to R124): its checks, and how it ends. -/

namespace Sys2Proof.Machine

/-! ### The checks -/

theorem orderOf_eq_some_iff (f : BitVec 2) (o : BitOrder) :
    orderOf f = some o ↔ (f = 0 ∧ o = .normalLSBFirst) ∨ (f = 1 ∧ o = .reverseMSBFirst) := by
  revert f
  cases o <;> decide

theorem orderOf_eq_none_iff : ∀ f : BitVec 2, orderOf f = none ↔ f = 2 ∨ f = 3 := by decide

/-- A command in the wrong `CFG_STATE` is refused whatever its operands (60_exceptions.md R204). -/
theorem checkVerdict_of_wrongCfg {i : Instr} {s : State} (h : s.cfg ≠ requiredCfg i) :
    checkVerdict i s = some .illegalState :=
  if_neg h

theorem checkVerdict_config_ok {len : Int} {order : BitVec 2} {o : BitOrder} {s : State}
    (hc : s.cfg = .unconfigured) (h1 : 1 ≤ len) (hn : len ≤ s.params.nMax) (ho : orderOf order = some o) :
    checkVerdict (.config len order) s = none :=
  (if_pos hc).trans (if_pos ⟨h1, hn, by rw [ho]; rfl⟩)

theorem checkVerdict_config_error {len : Int} {order : BitVec 2} {s : State}
    (hc : s.cfg = .unconfigured) (h : len ≤ 0 ∨ (s.params.nMax : Int) < len ∨ orderOf order = none) :
    checkVerdict (.config len order) s = some .configurationError := by
  refine (if_pos hc).trans (if_neg ?_)
  rintro ⟨h1, hn, ho⟩
  rcases h with h | h | h
  · omega
  · omega
  · simp [h] at ho

/-- Settles O19: a configured controller is in the wrong `CFG_STATE` for CONFIG. -/
theorem configWhenConfiguredRefused : Obligations.ConfigWhenConfiguredRefused := by
  intro s len order hc
  exact exec_of_refused (checkVerdict_of_wrongCfg (by simp [hc, requiredCfg]))

/-- Settles O20: each cause fails the operand check. -/
theorem configurationErrorCauses : Obligations.ConfigurationErrorCauses := by
  intro s len order hc h
  refine exec_of_refused (checkVerdict_config_error hc ?_)
  rw [orderOf_eq_none_iff]
  rcases h with h | h | h | h <;> simp [h]

/-! ### How it ends -/

/-- No event of CONFIG clocks or clears the chain (R121). -/
theorem applied_config_chain (s : State) :
    (applied configEvents s).stage = s.stage ∧ (applied configEvents s).latch = s.latch :=
  ⟨rfl, rfl⟩

/-- CONFIG drives every line (R121). -/
theorem after_config (ln : Lines) (sp : PerLine Bool) :
    linesAfter ln configEvents = ⟨false, false, false, false, true⟩ ∧
    specifiedAfter sp configEvents = PerLine.all true :=
  ⟨rfl, rfl⟩

/-- Settles O18: the events leave the chain, and the registers are written after them. -/
theorem configCompletes : Obligations.ConfigCompletes := by
  intro s len order o hc h1 hn ho hok
  have ho' := (orderOf_eq_some_iff order o).2 ho
  obtain ⟨hstage, hlatch⟩ := applied_config_chain s
  obtain ⟨hlines, hspec⟩ := after_config s.lines s.specified
  rw [exec_of_allOk (checkVerdict_config_ok hc h1 hn ho') rfl hok]
  simp only [eventsOf, afterEvents, datumOf, ho', Option.getD_some]
  rw [applied_eq, hstage, hlatch, hlines, hspec]
  rfl

/-- Settles O21: CONFIG writes nothing before its events. -/
theorem configCutShort : Obligations.ConfigCutShort := by
  intro s len order j hc h1 hn ho hfail
  obtain ⟨o, ho'⟩ : ∃ o, orderOf order = some o := by
    rcases ho with rfl | rfl
    · exact ⟨_, rfl⟩
    · exact ⟨_, rfl⟩
  exact exec_of_firstFail (checkVerdict_config_ok hc h1 hn ho') rfl hfail

end Sys2Proof.Machine
end

section
/-! CLEAR (spec/40_construction_and_clear.md R125 to R127). -/

namespace Sys2Proof.Machine

/-- What a CLEAR whose six events are answered `ok` ends in (R125). -/
def cleared (s : State) : State := ((applied clearEvents s).setShadow 0).respond .ok 0

theorem exec_clear_of_allOk {s : State} (hc : s.cfg = .configured) (h : AllOk s 6) :
    exec .clear s = .next (cleared s) :=
  exec_of_allOk (i := .clear) (if_pos hc) rfl h

/-- CLEAR drives `OE`, `CLR` and `LCK`, and leaves `SER` and `SCK` (R126). -/
theorem linesAfter_clear (ln : Lines) :
    linesAfter ln clearEvents = { ln with oe := false, clr := true, lck := false } :=
  rfl

/-- Settles O22: the events are emitted, then the shadow is written. -/
theorem clearCompletes : Obligations.ClearCompletes := by
  intro s hc hok
  have hx := exec_clear_of_allOk hc hok
  refine ⟨cleared s, hx, rfl, ?_, emitted_applied clearEvents s, ?_, exec_sameConfiguration hc hx,
    exec_sameSurroundings hx⟩
  · simp [Responded, cleared]
  · simp [cleared, linesAfter_clear]

/-! ### The chain -/

/-- `CLR=0` zeroes the stages, and no later event of CLEAR changes them. -/
theorem applied_clear_stage (s : State) : (applied clearEvents s).stage = zeroCells s.stage := rfl

/-- `LCK=1` copies the zeroed stages to the latches; the events before it leave `LCK` alone. -/
theorem applied_clear_latch {s : State} (h : s.specified.lck = true → s.lines.lck = false) :
    (applied clearEvents s).latch = zeroCells s.stage :=
  latchAfter_lckUp (ln := linesAfter s.lines (clearEvents.take 3))
    (sp := specifiedAfter s.specified (clearEvents.take 3)) ((rises_iff _ _ .lck).2 h) (zeroCells s.stage) s.latch

/-- For the shadow 0 the pattern of R70 is 0 everywhere. -/
theorem shiftedOutCell_zero (o : BitOrder) (w n : Nat) : shiftedOutCell o w 0 n = some false := by
  cases o <;> simp [shiftedOutCell, sentBit, bitOf]

/-- Settles O23: every latch takes a zeroed stage, the outputs are enabled, and the shadow is 0. -/
theorem clearZeroesChain : Obligations.ClearZeroesChain := by
  intro s hc hok
  refine ⟨_, exec_clear_of_allOk hc hok, applied_clear_stage s, fun hlck => ?_⟩
  have hlatch : (cleared s).latch = List.replicate s.stage.length (some false) := applied_clear_latch hlck
  have hoe : (cleared s).lines.oe = false := by simp [cleared, linesAfter_clear]
  refine ⟨hlatch, ?_, hoe, fun n _ hn => ?_⟩
  · rw [State.out, hlatch, hoe, List.map_replicate]
    rfl
  · rw [hlatch, List.length_replicate] at hn
    rw [hlatch, List.getElem?_replicate_of_lt hn, show (cleared s).shadow = 0 from rfl, shiftedOutCell_zero]

/-! ### The outputs meanwhile -/

/-- From the first event of CLEAR to before its last `OE` is at 1 (R126). -/
theorem linesAfter_take_clear_oe (ln : Lines) {j : Nat} (h1 : 1 ≤ j) (h5 : j ≤ 5) :
    (linesAfter ln (clearEvents.take j)).oe = true := by
  interval_cases j <;> rfl

/-- Settles O24: `OE` is at 1 there. -/
theorem clearHidesOutputs : Obligations.ClearHidesOutputs := by
  intro s j h1 h5 hok
  refine ⟨_, emit_of_allOk (hok.mono (List.length_take_le _ _)), out_of_disabled ?_⟩
  rw [applied_lines]
  exact linesAfter_take_clear_oe s.lines h1 h5

/-- The second to the fifth event of CLEAR do not drive `OE`. -/
theorem clearEvents_line_ne_oe {j : Nat} (h1 : 1 ≤ j) (h4 : j ≤ 4) :
    (clearEvents[j]?).map LineEvent.line ≠ some .oe := by
  interval_cases j <;> decide

/-- Settles O25: a failing event leaves the lines it does not drive, and from the second to the fifth that is so of
`OE`, at 1 since the first. -/
theorem clearCutShort : Obligations.ClearCutShort := by
  intro s j hc hfail
  obtain ⟨t, hx, hr, hcut, hcfg, hshadow, hsame⟩ := exec_of_firstFail (i := .clear) (if_pos hc) rfl hfail
  refine ⟨t, hx, hr, hshadow, hcut, fun h1 h4 => ?_, hcfg, hsame⟩
  obtain ⟨-, hlines, -⟩ := hcut
  have hoe : t.lines.oe = true :=
    (hlines .oe (clearEvents_line_ne_oe h1 h4)).trans (linesAfter_take_clear_oe s.lines h1 (by omega))
  exact ⟨hoe, out_of_disabled hoe⟩

end Sys2Proof.Machine
end

section
/-! The reads (spec/41_read.md R140 to R144, spec/43_pin_facade.md R181): accessors over the shadow, whose one effect is the
response. -/

namespace Sys2Proof.Machine

/-! ### What a read answers -/

theorem exec_rdreg_of_configured {s : State} (hc : s.cfg = .configured) :
    exec .rdreg s = .next (s.respond .ok s.shadow) :=
  exec_read (i := .rdreg) rfl (if_pos hc)

/-- Settles O31: RDREG asks only for a configured controller. -/
theorem rdregAnswersShadow : Obligations.RdregAnswersShadow :=
  fun _ hc => exec_rdreg_of_configured hc

/-- Settles O32: the byte is the eight-bit field of the shadow at `8k`. -/
theorem rdbyteAnswersByte : Obligations.RdbyteAnswersByte := by
  intro s k hc hk
  rw [exec_rdbyte_of_lt hc hk, memRead_eq]
  rfl

/-- Settles O33: the bit is the one-bit field of the shadow at `b`, and PGET is RDBIT. -/
theorem rdbitAndPgetAnswerBit : Obligations.RdbitAndPgetAnswerBit := by
  intro s b hc hb
  have hx : exec (.rdbit b) s = .next (s.respond .ok (s.shadow.testBit b).toNat) := by
    rw [exec_rdbit_of_lt hc hb, memRead_one]
  exact ⟨hx, hx⟩

/-! ### What the answer depends on -/

/-- No check of a command finds a hardware fault: only a line event does (60_exceptions.md R203). -/
theorem checkVerdict_ne_hardwareFault (i : Instr) (s : State) : checkVerdict i s ≠ some .hardwareFault := by
  rcases exec_cases i s with ⟨e, hv, he, -⟩ | ⟨hv, -⟩ | ⟨hv, -⟩
  · rw [hv]
    exact fun h => he (Option.some.inj h)
  · simp [hv]
  · simp [hv]

/-- A read checks its index against `N` only (20_memory.md R57). -/
theorem operandVerdict_congr_of_read {i : Instr} {s t : State} (hi : isRead i = true) (hn : t.chainLen = s.chainLen) :
    operandVerdict i t = operandVerdict i s := by
  cases i with
  | rdreg | rdbyte | rdbit | pget => simp only [operandVerdict, State.width, hn]
  | _ => cases hi

theorem checkVerdict_congr_of_read {i : Instr} {s t : State} (hi : isRead i = true) (hc : t.cfg = s.cfg)
    (hn : t.chainLen = s.chainLen) : checkVerdict i t = checkVerdict i s := by
  rw [checkVerdict, checkVerdict, hc, operandVerdict_congr_of_read hi hn]

theorem datumOf_congr (i : Instr) {s t : State} (hs : t.shadow = s.shadow) : datumOf i t = datumOf i s := by
  cases i <;> simp only [datumOf, hs]

/-- The response to a read: its verdict's error, or the datum. -/
def readResponse (i : Instr) (s : State) : Response :=
  match checkVerdict i s with
  | some e => ⟨e.code, 0⟩
  | none => ⟨.ok, datumOf i s⟩

/-- A read responds and does nothing else, whatever the state and its index. -/
theorem exec_read_eq {i : Instr} (hi : isRead i = true) (s : State) :
    exec i s = .next { s with responses := s.responses ++ [readResponse i s] } := by
  unfold readResponse
  cases hv : checkVerdict i s with
  | some e => exact exec_of_refused hv
  | none => exact exec_read hi hv

theorem readResponse_code_ne_hardwareFault (i : Instr) (s : State) : (readResponse i s).code ≠ .hardwareFault := by
  have hne := checkVerdict_ne_hardwareFault i s
  unfold readResponse
  cases hv : checkVerdict i s with
  | some e =>
    rw [hv] at hne
    cases e with
    | hardwareFault => exact absurd rfl hne
    | _ => simp [CmdError.code]
  | none => simp

/-- The response to a read is computed from CFG_STATE, `N` and the shadow. -/
theorem readResponse_congr {i : Instr} {s t : State} (hi : isRead i = true) (hc : t.cfg = s.cfg)
    (hn : t.chainLen = s.chainLen) (hs : t.shadow = s.shadow) : readResponse i t = readResponse i s := by
  simp only [readResponse, checkVerdict_congr_of_read hi hc hn, datumOf_congr i hs]

/-- Settles O34: a read's one effect is its response, and the two states have the same. -/
theorem readsAreOfTheShadow : Obligations.ReadsAreOfTheShadow := by
  intro i s s' hi hc hn hs
  refine ⟨readResponse i s, readResponse_code_ne_hardwareFault i s, exec_read_eq hi s, ?_⟩
  rw [← readResponse_congr hi hc hn hs]
  exact exec_read_eq hi s'

/-! ### A read after a WRREG -/

/-- A field inside the first `w` bits is not changed by cutting the value to them. -/
theorem memRead_mod_two_pow {w a n : Nat} (h : a + n ≤ w) (v : Nat) : memRead (v % 2 ^ w) a n = memRead v a n := by
  refine Nat.eq_of_testBit_eq fun j => ?_
  rw [testBit_memRead, testBit_memRead, Nat.testBit_mod_two_pow]
  by_cases hj : j < n
  · simp [hj, show a + j < w by omega]
  · simp [hj]

/-- WRREG's operand is cut to the width of the register (42_write.md R155). -/
theorem beforeEvents_wrreg (v : Nat) (s : State) : beforeEvents (.wrreg v) s = s.setShadow (v % 2 ^ s.width) :=
  congrArg s.setShadow (registerOperand_eq s.width v)

/-- Settles O51: the completed WRREG leaves `v mod 2^(8N)` in the shadow and the configuration as it was, and byte `k < N`
lies inside the width. -/
theorem truncationAndByteLaw : Obligations.TruncationAndByteLaw := by
  intro s v k hc hok hk
  have hwrites := writesAndShiftsOut (i := .wrreg v) rfl (if_pos hc) (beforeEvents_wrreg v s)
  obtain ⟨t, hx, hshadow, -, -, ⟨hcfg, hlen, -⟩, -⟩ := hwrites.1 hok
  have hct : t.cfg = .configured := hcfg.trans hc
  have hwidth : 8 * k + 8 ≤ s.width := show 8 * k + 8 ≤ 8 * s.chainLen by omega
  refine ⟨t, hx, ?_, ?_⟩
  · show exec .rdreg t = .next (t.respond .ok (v % 2 ^ s.width))
    rw [exec_rdreg_of_configured hct, hshadow]
  · show exec (.rdbyte k) t = .next (t.respond .ok (v / 2 ^ (8 * k) % 2 ^ 8))
    rw [exec_rdbyte_of_lt hct (hlen ▸ hk), hshadow, memRead_mod_two_pow hwidth, memRead_eq]

end Sys2Proof.Machine
end

section
/-! The writes of a field of the shadow (spec/42_write.md R150, R151): R150's formula, and every bit of the shadow
afterwards. -/

namespace Sys2Proof.Machine

/-- Within `w` bits the complement of `x` is its distance from the mask. -/
theorem notBits_of_lt {w x : Nat} (h : x < 2 ^ w) : notBits w x = 2 ^ w - 1 - x := by
  rw [Nat.sub_sub, Nat.add_comm]
  refine Nat.eq_of_testBit_eq fun j => ?_
  rw [testBit_notBits, Nat.testBit_two_pow_sub_succ h]

/-- A field inside the `w` bits is cleared with a mask and the value OR-ed in (42_write.md R150). -/
theorem memWrite_eq {w v a n x : Nat} (ha : a + n ≤ w) (hx : x < 2 ^ n) (hv : v < 2 ^ w) :
    memWrite w v a n x = (v &&& (2 ^ w - 1 - (2 ^ n - 1) * 2 ^ a)) ||| (x <<< a) := by
  have hfield : ∀ y, y < 2 ^ n → y <<< a < 2 ^ w := by
    intro y hy
    calc y <<< a = y * 2 ^ a := Nat.shiftLeft_eq y a
      _ < 2 ^ n * 2 ^ a := Nat.mul_lt_mul_of_pos_right hy (Nat.two_pow_pos a)
      _ = 2 ^ (a + n) := by rw [← pow_add, Nat.add_comm]
      _ ≤ 2 ^ w := Nat.pow_le_pow_right two_pos ha
  have hmask : mask n <<< a < 2 ^ w := hfield _ (Nat.sub_lt (Nat.two_pow_pos n) one_pos)
  have hclear : v &&& notBits w (mask n <<< a) < 2 ^ w := Nat.and_le_left.trans_lt hv
  rw [memWrite, and_mask, and_mask, Nat.mod_eq_of_lt hx, Nat.mod_eq_of_lt (Nat.or_lt_two_pow hclear (hfield x hx)),
    notBits_of_lt hmask, Nat.shiftLeft_eq (mask n), mask]

/-- The bits of a field inside the `w` bits are the value's, the others are the old ones. -/
theorem testBit_memWrite_of_le {w v a n : Nat} (ha : a + n ≤ w) (hv : v < 2 ^ w) (x j : Nat) :
    (memWrite w v a n x).testBit j = if a ≤ j ∧ j < a + n then x.testBit (j - a) else v.testBit j := by
  rw [testBit_memWrite]
  by_cases hj : j < w
  · simp [hj]
  · have hfield : ¬ (a ≤ j ∧ j < a + n) := by omega
    have hold : v.testBit j = false :=
      Nat.testBit_lt_two_pow (hv.trans_le (Nat.pow_le_pow_right two_pos (Nat.not_lt.1 hj)))
    simp [hj, hfield, hold]

/-- A field of one bit. -/
theorem testBit_memWrite_one {w v b : Nat} (hb : b < w) (hv : v < 2 ^ w) (x j : Nat) :
    (memWrite w v b 1 x).testBit j = if j = b then decide (x % 2 = 1) else v.testBit j := by
  rw [testBit_memWrite_of_le hb hv]
  by_cases hj : j = b
  · simp [hj, Nat.testBit_zero]
  · rw [if_neg hj, if_neg (by omega)]

/-- Settles O36: one bit is a field of width 1. -/
theorem mergeOneBit : Obligations.MergeOneBit := by
  intro s b x hb hx hv
  refine ⟨memWrite s.width s.shadow b 1 x, rfl, memWrite_lt _ _ _ _ _, ?_, fun j => ?_⟩
  · simpa using memWrite_eq (n := 1) hb hx hv
  · rw [testBit_memWrite_one hb hv, Nat.mod_eq_of_lt hx]

/-- A byte in range lies inside the width of the shadow. -/
theorem byte_le_width {s : State} {k : Nat} (hk : k < s.chainLen) : 8 * k + 8 ≤ s.width := by
  show 8 * k + 8 ≤ 8 * s.chainLen
  omega

/-- Settles O37: byte `k` is the field of width 8 at `8k`. -/
theorem mergeOneByte : Obligations.MergeOneByte := by
  intro s k y hk hy hv
  have hle := byte_le_width hk
  exact ⟨memWrite s.width s.shadow (8 * k) 8 y, rfl, memWrite_lt _ _ _ _ _, memWrite_eq (n := 8) hle hy hv,
    testBit_memWrite_of_le hle hv y⟩

end Sys2Proof.Machine
end

section
/-! What a shift-out sends on `SER`, and where it latches (spec/42_write.md R153, R154, R159). -/

namespace Sys2Proof.Machine

/-- The levels driven on `SER`, in order. -/
def serLevels (es : List LineEvent) : List Level := (es.filter fun e => e.line = .ser).map LineEvent.level

theorem serLevels_append (es fs : List LineEvent) : serLevels (es ++ fs) = serLevels es ++ serLevels fs := by
  simp [serLevels]

theorem serLevels_bitsEvents (f : Nat → Bool) (n : Nat) : serLevels (bitsEvents f n) = (List.range n).map f := by
  induction n with
  | zero => rfl
  | succ n ih =>
    rw [bitsEvents_succ, serLevels_append, ih, List.range_succ, List.map_append]
    rfl

/-- Neither the clear pulse nor the latch pulse drives `SER`. -/
theorem serLevels_shiftOut (o : BitOrder) (n v : Nat) :
    serLevels (shiftOutEvents o n v) = (List.range (8 * n)).map (sentBit o (8 * n) v) := by
  rw [shiftOutEvents_eq, serLevels_append, serLevels_append, serLevels_bitsEvents]
  exact List.append_nil _

theorem sentBit_normal {w i : Nat} (v : Nat) (h : i < w) : sentBit .normalLSBFirst w v i = v.testBit i :=
  bitOf_of_lt h

/-- The first bit sent in ReverseMSBFirst is the 0 read at the width (42_write.md R154). -/
theorem sentBit_reverse {w i : Nat} (v : Nat) (h : i < w) :
    sentBit .reverseMSBFirst w v i = if i = 0 then false else v.testBit (w - i) := by
  by_cases hi : i = 0
  · rw [if_pos hi, hi]
    exact bitOf_of_ge (Nat.le_refl w)
  · rw [if_neg hi]
    exact bitOf_of_lt (by omega)

/-- The events of a shift-out depend on the bits it sends. -/
theorem shiftOutEvents_congr {o : BitOrder} {n v v' : Nat}
    (h : ∀ i, i < 8 * n → sentBit o (8 * n) v i = sentBit o (8 * n) v' i) :
    shiftOutEvents o n v = shiftOutEvents o n v' := by
  have hbits : bitsEvents (sentBit o (8 * n) v) (8 * n) = bitsEvents (sentBit o (8 * n) v') (8 * n) :=
    List.flatMap_congr fun i hi => congrArg bitEvents (h i (List.mem_range.1 hi))
  rw [shiftOutEvents_eq, shiftOutEvents_eq, hbits]

/-- Settles O38: the levels are the sent bits in order, and ReverseMSBFirst sends no bit 0. -/
theorem serialBitSequence : Obligations.SerialBitSequence := by
  refine fun n v => ⟨fun _ => ⟨?_, ?_⟩, fun v' hv' => ?_⟩
  · refine (serLevels_shiftOut .normalLSBFirst n v).trans (List.map_congr_left fun i hi => ?_)
    exact sentBit_normal v (List.mem_range.1 hi)
  · refine (serLevels_shiftOut .reverseMSBFirst n v).trans (List.map_congr_left fun i hi => ?_)
    exact sentBit_reverse v (List.mem_range.1 hi)
  · refine shiftOutEvents_congr fun i hi => ?_
    rw [sentBit_reverse v hi, sentBit_reverse v' hi, hv' _ (by omega : 8 * n - i ≠ 0)]

/-- Settles O39: the body of the shift-out drives no `LCK`, and after `LCK=1` stands only `LCK=0`. -/
theorem latchComesOnceAtEnd : Obligations.LatchComesOnceAtEnd := by
  intro o n v
  refine ⟨shiftOutBody o n v, [⟨.lck, false⟩], ?_, fun e he => (line_of_mem_shiftOutBody he).1, by decide⟩
  rw [shiftOutEvents_eq_body, List.append_assoc]
  rfl

end Sys2Proof.Machine
end

section
/-! The write commands (spec/42_write.md R155 to R163, spec/43_pin_facade.md R182): the shadow each leaves, completed or
cut short, and the events it emits. -/

namespace Sys2Proof.Machine

/-! ### What each writes -/

/-- Settles O41: the shadow written is the operand cut to the width. -/
theorem wrregWrites : Obligations.WrregWrites :=
  fun s v hc => writesAndShiftsOut rfl (if_pos hc) (beforeEvents_wrreg v s)

/-- Settles O42: nothing is written before the events. -/
theorem refreshShiftsOut : Obligations.RefreshShiftsOut :=
  fun _ hc => writesAndShiftsOut rfl (if_pos hc) rfl

/-- The shadow with its byte `k` replaced by the byte operand `y` (R157). -/
def shadowWithByte (s : State) (k y : Nat) : Nat := memWrite s.width s.shadow (8 * k) 8 (byteOperand y)

/-- The shadow with its bit `b` replaced by the state operand `st` (R158). -/
def shadowWithBit (s : State) (b st : Nat) : Nat := memWrite s.width s.shadow b 1 (stateOperand st)

theorem testBit_shadowWithByte {s : State} {k : Nat} (hk : k < s.chainLen) (hv : s.shadow < 2 ^ s.width) (y j : Nat) :
    (shadowWithByte s k y).testBit j =
      if 8 * k ≤ j ∧ j < 8 * k + 8 then y.testBit (j - 8 * k) else s.shadow.testBit j := by
  rw [shadowWithByte, testBit_memWrite_of_le (byte_le_width hk) hv]
  refine ite_congr rfl (fun hj => ?_) fun _ => rfl
  have hlt : j - 8 * k < 8 := by omega
  rw [byteOperand, Nat.testBit_and, testBit_mask, decide_eq_true hlt, Bool.and_true]

theorem testBit_shadowWithBit {s : State} {b : Nat} (hb : b < s.width) (hv : s.shadow < 2 ^ s.width) (st j : Nat) :
    (shadowWithBit s b st).testBit j = if j = b then decide (st % 2 = 1) else s.shadow.testBit j := by
  rw [shadowWithBit, testBit_memWrite_one hb hv, stateOperand_eq, Nat.mod_mod]

theorem beforeEvents_wrbyte (y k : Nat) (s : State) :
    beforeEvents (.wrbyte y k) s = s.setShadow (shadowWithByte s k y) := rfl

theorem beforeEvents_wrbit (st b : Nat) (s : State) :
    beforeEvents (.wrbit st b) s = s.setShadow (shadowWithBit s b st) := rfl

/-- Settles O43: the index is in range, and the byte's field lies inside the width. -/
theorem wrbyteWrites : Obligations.WrbyteWrites := by
  intro s y k hc hk hv
  have hcheck : checkVerdict (.wrbyte y k) s = none := (if_pos hc).trans (indexVerdict_of_lt hk)
  exact ⟨shadowWithByte s k y, writesAndShiftsOut rfl hcheck (beforeEvents_wrbyte y k s),
    testBit_shadowWithByte hk hv y⟩

/-- Settles O44: the index is in range, and PSET writes the same bit as WRBIT. -/
theorem wrbitAndPsetWrite : Obligations.WrbitAndPsetWrite := by
  intro s st b hc hb hv
  have hwrbit : checkVerdict (.wrbit st b) s = none := (if_pos hc).trans (indexVerdict_of_lt hb)
  have hpset : checkVerdict (.pset b st) s = none := (if_pos hc).trans (indexVerdict_of_lt hb)
  exact ⟨shadowWithBit s b st, writesAndShiftsOut rfl hwrbit (beforeEvents_wrbit st b s),
    writesAndShiftsOut rfl hpset rfl, testBit_shadowWithBit hb hv st⟩

/-! ### What a completed write leaves -/

/-- Settles O48: both emit the shift-out of the shadow they leave. -/
theorem writeEventsDependOnShadowOnly : Obligations.WriteEventsDependOnShadowOnly := by
  intro i i' s s' t t' hw hw' hx hx' hr hr' hlen horder hshadow
  obtain ⟨v, rfl⟩ := exec_write_of_ok hw hx hr
  obtain ⟨v', rfl⟩ := exec_write_of_ok hw' hx' hr'
  obtain rfl : v = v' := by simpa using hshadow
  exact ⟨shiftOutEvents s.bitOrder s.chainLen v, by simp, by simp [hlen, horder]⟩

/-- A command answered `OK` has passed its checks. -/
theorem passed_of_ok {i : Instr} {s t : State} {d : Nat} (hx : exec i s = .next t) (hr : Responded s t .ok d) :
    checkVerdict i s = none := by
  cases hv : checkVerdict i s with
  | none => rfl
  | some e =>
    obtain rfl := Host.Outcome.next.inj ((exec_of_refused hv).symm.trans hx)
    exact absurd hr (not_responded_ok_of_raise rfl e d)

/-- A write whose checks pass leaves the shadow its before-events write gave and the width as it was, completed or cut
short. -/
theorem exec_write_shadow {i : Instr} {s t : State} (hw : isWrite i = true) (hv : checkVerdict i s = none)
    (hx : exec i s = .next t) : t.shadow = (beforeEvents i s).shadow ∧ t.chainLen = s.chainLen := by
  obtain ⟨v, hb⟩ := beforeEvents_eq i s
  obtain ⟨hcompletes, hcutShort⟩ := writesAndShiftsOut hw hv hb
  rw [hb]
  rcases allOk_or_firstFail s (24 * s.chainLen + 4) with h | ⟨j, h⟩
  · obtain ⟨u, hu, hshadow, -, -, ⟨-, hlen, -⟩, -⟩ := hcompletes h
    obtain rfl := Host.Outcome.next.inj (hu.symm.trans hx)
    exact ⟨hshadow, hlen⟩
  · obtain ⟨u, hu, hshadow, -, -, ⟨-, hlen, -⟩, -⟩ := hcutShort j h
    obtain rfl := Host.Outcome.next.inj (hu.symm.trans hx)
    exact ⟨hshadow, hlen⟩

/-- An index that passes its check is in range. -/
theorem index_of_verdict {c : Nat} {k : Int} (h : indexVerdict c k = none) : ∃ n : Nat, k = n ∧ n < c := by
  rcases indexVerdict_cases c k with ⟨-, he⟩ | ⟨hk, -⟩
  · cases he.symm.trans h
  · exact ⟨k.toNat, by omega, by omega⟩

/-- A completed WRBIT had an index in range and wrote that bit. -/
theorem wrbit_of_ok {s t : State} {st : Nat} {b : Int} (hx : exec (.wrbit st b) s = .next t)
    (hr : Responded s t .ok 0) :
    ∃ n : Nat, b = n ∧ n < s.width ∧ t.width = s.width ∧ t.shadow = shadowWithBit s n st := by
  have hv := passed_of_ok hx hr
  obtain ⟨n, rfl, hn⟩ := index_of_verdict (passed_check hv).2
  obtain ⟨hshadow, hlen⟩ := exec_write_shadow rfl hv hx
  exact ⟨n, rfl, hn, congrArg (8 * ·) hlen, hshadow⟩

/-- A completed WRBYTE had an index in range and wrote that byte. -/
theorem wrbyte_of_ok {s t : State} {y : Nat} {k : Int} (hx : exec (.wrbyte y k) s = .next t)
    (hr : Responded s t .ok 0) : ∃ n : Nat, k = n ∧ n < s.chainLen ∧ t.shadow = shadowWithByte s n y := by
  have hv := passed_of_ok hx hr
  obtain ⟨n, rfl, hn⟩ := index_of_verdict (passed_check hv).2
  exact ⟨n, rfl, hn, (exec_write_shadow rfl hv hx).1⟩

theorem testBit_of_wrbit_ok {s t : State} {st : Nat} {b : Int} (hv : s.shadow < 2 ^ s.width)
    (hx : exec (.wrbit st b) s = .next t) (hr : Responded s t .ok 0) (j : Nat) :
    t.shadow.testBit j = if (j : Int) = b then decide (st % 2 = 1) else s.shadow.testBit j := by
  obtain ⟨n, rfl, hn, -, hshadow⟩ := wrbit_of_ok hx hr
  simp only [hshadow, testBit_shadowWithBit hn hv, Nat.cast_inj]

/-- A completed WRBIT keeps the shadow inside its width. -/
theorem shadow_lt_of_wrbit_ok {s t : State} {st : Nat} {b : Int} (hx : exec (.wrbit st b) s = .next t)
    (hr : Responded s t .ok 0) : t.shadow < 2 ^ t.width := by
  obtain ⟨n, -, -, hwidth, hshadow⟩ := wrbit_of_ok hx hr
  rw [hwidth, hshadow]
  exact memWrite_lt _ _ _ _ _

/-- Settles O53: each of the two WRBITs keeps every other bit, and so do a WRBIT and a WRBYTE alone. -/
theorem noCrossBitCorruption : Obligations.NoCrossBitCorruption := by
  refine fun s t hv hr => ⟨fun b u hx hx' hr' j hj => ?_, fun st b hx => testBit_of_wrbit_ok hv hx hr,
    fun y k hx j => ?_⟩
  · rw [testBit_of_wrbit_ok (shadow_lt_of_wrbit_ok hx hr) hx' hr', if_neg hj, testBit_of_wrbit_ok hv hx hr, if_neg hj]
  · obtain ⟨n, rfl, hn, hshadow⟩ := wrbyte_of_ok hx hr
    rw [hshadow, testBit_shadowWithByte hn hv, Int.toNat_natCast]
    exact if_congr (by omega) rfl rfl

end Sys2Proof.Machine
end

section
/-! The pin commands that write (spec/43_pin_facade.md R184 to R187): the shadow PTGL, PON and POFF leave, and two PTGLs
of one pin. -/

namespace Sys2Proof.Machine

/-! ### The negation of one bit -/

/-- `v`, of width `w`, with its bit `b` negated: what PTGL writes (R184). -/
def toggledBit (w v b : Nat) : Nat := memWrite w v b 1 (1 - memRead v b 1)

theorem beforeEvents_ptgl (p : Int) (s : State) :
    beforeEvents (.ptgl p) s = s.setShadow (toggledBit s.width s.shadow p.toNat) := rfl

/-- The one-bit difference `1 - x` is the negation of `x`. -/
theorem testBit_toggledBit {w v b : Nat} (hb : b < w) (hv : v < 2 ^ w) (j : Nat) :
    (toggledBit w v b).testBit j = if j = b then !v.testBit b else v.testBit j := by
  have hneg : ∀ x : Bool, decide ((1 - x.toNat) % 2 = 1) = !x := by decide
  rw [toggledBit, testBit_memWrite_one hb hv, memRead_one, hneg]

/-- Negating a bit twice restores it, and no other bit moves. -/
theorem toggledBit_toggledBit {w v b : Nat} (hb : b < w) (hv : v < 2 ^ w) :
    toggledBit w (toggledBit w v b) b = v := by
  have htoggled : toggledBit w v b < 2 ^ w := memWrite_lt _ _ _ _ _
  refine Nat.eq_of_testBit_eq fun j => ?_
  rw [testBit_toggledBit hb htoggled, testBit_toggledBit hb hv, testBit_toggledBit hb hv, if_pos rfl, Bool.not_not]
  by_cases hj : j = b
  · rw [if_pos hj, hj]
  · rw [if_neg hj, if_neg hj]

/-! ### One command -/

/-- Settles O45: the index is in range, and the shadow written has that bit negated. -/
theorem ptglToggles : Obligations.PtglToggles := by
  intro s p hc hp hv
  have hcheck : checkVerdict (.ptgl p) s = none := (if_pos hc).trans (indexVerdict_of_lt hp)
  exact ⟨toggledBit s.width s.shadow p, writesAndShiftsOut rfl hcheck (beforeEvents_ptgl p s),
    testBit_toggledBit hp hv⟩

/-- Settles O46: the index is in range, and the bit written is that of WRBIT with the state operand 1 or 0. -/
theorem ponAndPoffWrite : Obligations.PonAndPoffWrite := by
  intro s p hc hp hv
  have hpon : checkVerdict (.pon p) s = none := (if_pos hc).trans (indexVerdict_of_lt hp)
  have hpoff : checkVerdict (.poff p) s = none := (if_pos hc).trans (indexVerdict_of_lt hp)
  refine ⟨⟨shadowWithBit s p 1, writesAndShiftsOut rfl hpon rfl, ?_⟩,
    ⟨shadowWithBit s p 0, writesAndShiftsOut rfl hpoff rfl, ?_⟩⟩
  · exact testBit_shadowWithBit hp hv 1
  · exact testBit_shadowWithBit hp hv 0

/-! ### Two completed PTGLs -/

/-- A completed write has emitted the `24N + 4` events of its shift-out. -/
theorem events_length_of_write_ok {i : Instr} {s t : State} (hw : isWrite i = true) (hx : exec i s = .next t)
    (hr : Responded s t .ok 0) : t.events.length = s.events.length + (24 * s.chainLen + 4) := by
  obtain ⟨v, rfl⟩ := exec_write_of_ok hw hx hr
  simp

/-- A completed PTGL had an index in range and negated that bit. -/
theorem ptgl_of_ok {s t : State} {p : Int} (hx : exec (.ptgl p) s = .next t) (hr : Responded s t .ok 0) :
    p.toNat < s.width ∧ t.shadow = toggledBit s.width s.shadow p.toNat ∧ t.chainLen = s.chainLen := by
  have hv := passed_of_ok hx hr
  obtain ⟨n, rfl, hn⟩ := index_of_verdict (passed_check hv).2
  exact ⟨hn, exec_write_shadow rfl hv hx⟩

/-- Settles O52: both negate the same bit of a register of the same width, and each emits one shift-out. -/
theorem toggleTwiceRestores : Obligations.ToggleTwiceRestores := by
  intro s t t' u p hv hx hr hshadow hconfig hx' hr'
  obtain ⟨hp, ht, hlen⟩ := ptgl_of_ok hx hr
  obtain ⟨-, hu, -⟩ := ptgl_of_ok hx' hr'
  obtain ⟨-, hlen', -⟩ := hconfig
  have hN : t'.chainLen = s.chainLen := hlen'.trans hlen
  have hwidth : t'.width = s.width := congrArg (8 * ·) hN
  constructor
  · rw [hu, hwidth, hshadow, ht, toggledBit_toggledBit hp hv]
  · rw [events_length_of_write_ok rfl hx hr, events_length_of_write_ok rfl hx' hr', hN]
    omega

end Sys2Proof.Machine
end

section
/-! What the response of a command can be, and what it tells of the checks and of the line events (spec/60_exceptions.md
R202 to R211). -/

namespace Sys2Proof.Machine

/-! ### The response of a command -/

/-- The responses `i` can give in `s`: the error its checks found; OK, its events all answered `ok`; HardwareFault, one of
them answered `fail` (R207, R211). -/
inductive AnswerCase (i : Instr) (s : State) : Response → Prop
  | refused {e : CmdError} (hv : checkVerdict i s = some e) (he : e ≠ .hardwareFault) : AnswerCase i s ⟨e.code, 0⟩
  | completes (hv : checkVerdict i s = none) (hok : AllOk s (eventsOf i (beforeEvents i s)).length) :
      AnswerCase i s ⟨.ok, datumOf i (beforeEvents i s)⟩
  | cutShort {j : Nat} (hv : checkVerdict i s = none)
      (hf : FirstFail s (eventsOf i (beforeEvents i s)).length j) : AnswerCase i s ⟨.hardwareFault, 0⟩

/-- Every command gives one response, and it is of one of the three cases. -/
theorem exec_answers (i : Instr) (s : State) :
    ∃ t r, exec i s = .next t ∧ t.responses = s.responses ++ [r] ∧ AnswerCase i s r := by
  obtain ⟨v, hb⟩ := beforeEvents_eq i s
  rcases exec_cases i s with ⟨e, hv, he, hx⟩ | ⟨hv, u, rfl, hok, hx⟩ | ⟨hv, u, j, e, rfl, hf, -, hx⟩
  · exact ⟨_, _, hx, rfl, .refused hv he⟩
  · obtain ⟨-, -, -, -, -, -, -, hresp, -⟩ :=
      afterEvents_same i (applied (eventsOf i (beforeEvents i s)) (beforeEvents i s))
    refine ⟨_, _, hx, ?_, .completes hv hok⟩
    rw [State.respond_responses, hresp]
    simp [hb]
  · exact ⟨_, _, hx, by simp [hb, CmdError.code], .cutShort hv hf⟩

/-- A command answers what one of the cases gives. -/
theorem answerCase_of_exec {i : Instr} {s t : State} {r : Response} (hx : exec i s = .next t)
    (hr : t.responses = s.responses ++ [r]) : AnswerCase i s r := by
  obtain ⟨u, r', hu, hr', h⟩ := exec_answers i s
  obtain rfl := Host.Outcome.next.inj (hu.symm.trans hx)
  obtain rfl : r' = r := by simpa using hr'.symm.trans hr
  exact h

/-- A command whose checks pass and whose events are all answered `ok` answers OK. -/
theorem exec_answers_ok {i : Instr} {s : State} (hv : checkVerdict i s = none)
    (hok : ∀ n, AllOk s n) : ∃ t d, exec i s = .next t ∧ Responded s t .ok d := by
  obtain ⟨t, r, hx, hr, h⟩ := exec_answers i s
  cases h with
  | refused hv' _ => cases hv.symm.trans hv'
  | completes _ _ => exact ⟨t, _, hx, hr⟩
  | cutShort _ hf => exact absurd (hok _) (not_allOk_of_firstFail hf)

/-- One whose checks pass and whose first event is answered `fail` answers HardwareFault. -/
theorem exec_answers_hardwareFault {i : Instr} {s : State} (hv : checkVerdict i s = none)
    (hpos : 0 < (eventsOf i (beforeEvents i s)).length) (hfail : s.answerAt 0 = .fail) :
    ∃ t, exec i s = .next t ∧ Responded s t .hardwareFault 0 := by
  obtain ⟨t, r, hx, hr, h⟩ := exec_answers i s
  cases h with
  | refused hv' _ => cases hv.symm.trans hv'
  | completes _ hok => cases (hok 0 hpos).symm.trans hfail
  | cutShort _ _ => exact ⟨t, hx, hr⟩

/-! ### The checks -/

/-- Settles O26: R204's two halves, O19 for CONFIG and `exec_unconfigured` for the others. -/
theorem illegalStateRefusals : Obligations.IllegalStateRefusals := by
  rintro i s (⟨⟨len, order, rfl⟩, hc⟩ | ⟨hi, hc⟩)
  · exact configWhenConfiguredRefused s len order hc
  · exact exec_unconfigured hc hi

/-- The one check of an indexed command on a configured controller is that of its index. -/
theorem checkVerdict_of_index {i : Instr} {s : State} {k : Int} {capacity : Nat} (hc : s.cfg = .configured)
    (h : indexAndCapacity i s = some (k, capacity)) : checkVerdict i s = indexVerdict capacity k := by
  cases i with
  | config | clear | rdreg | wrreg | refresh => cases h
  | _ =>
    cases h
    exact if_pos hc

/-- Settles O27: out of range the index check refuses the command; in range no check does, and a command whose checks
pass ends with OK or HardwareFault. -/
theorem indexErrors : Obligations.IndexErrors := by
  intro i s k capacity hc hk
  have hcheck := checkVerdict_of_index hc hk
  refine ⟨fun hout => ?_, fun h0 hlt => ?_⟩
  · have hv : indexVerdict capacity k = some .indexError := if_neg (by omega)
    exact exec_of_refused (hcheck.trans hv)
  · have hv : indexVerdict capacity k = none := if_pos ⟨h0, hlt⟩
    obtain ⟨t, r, hx, hr, h⟩ := exec_answers i s
    refine ⟨t, r, hx, hr, ?_⟩
    cases h with
    | refused hv' _ => cases (hcheck.trans hv).symm.trans hv'
    | completes _ _ => simp
    | cutShort _ _ => simp

theorem code_ne_hardwareFault {e : CmdError} (h : e ≠ .hardwareFault) : e.code ≠ .hardwareFault := by
  cases e with
  | hardwareFault => exact absurd rfl h
  | _ => simp [CmdError.code]

/-- Settles O30: no event is answered `fail`, and no check finds a hardware fault. -/
theorem noHardwareFaultWithoutLineFaults : Obligations.NoHardwareFaultWithoutLineFaults := by
  intro i s t r hoff hx hr
  cases answerCase_of_exec hx hr with
  | refused _ he => exact code_ne_hardwareFault he
  | completes _ _ => simp
  | cutShort _ hf => exact absurd (allOk_of_noFaults hoff _) (not_allOk_of_firstFail hf)

/-! ### The row of a command in R209's table -/

/-- The reads are the commands without events. -/
theorem eventsOf_length_pos_iff (i : Instr) (s : State) : 0 < (eventsOf i s).length ↔ isRead i = false := by
  cases i with
  | rdreg | rdbyte | rdbit | pget => exact ⟨fun h => absurd h (Nat.lt_irrefl 0), fun h => by cases h⟩
  | config | clear => exact ⟨fun _ => rfl, fun _ => Nat.succ_pos _⟩
  | _ => simp [eventsOf, isRead]

theorem ok_mem_possibleCodes (i : Instr) : .ok ∈ possibleCodes i := by
  cases i <;> exact List.mem_cons_self

theorem hardwareFault_mem_possibleCodes_iff (i : Instr) : .hardwareFault ∈ possibleCodes i ↔ isRead i = false := by
  cases i <;> simp [possibleCodes, isRead]

theorem illegalState_not_mem_possibleCodes (i : Instr) : .illegalState ∉ possibleCodes i := by
  cases i <;> simp [possibleCodes]

theorem indexVerdict_eq_some {c : Nat} {k : Int} {e : CmdError} (h : indexVerdict c k = some e) : e = .indexError := by
  obtain ⟨-, he⟩ := Option.ite_none_left_eq_some.1 h
  exact (Option.some.inj he).symm

/-- The error an operand check finds is in the command's row. -/
theorem code_mem_of_operandVerdict {i : Instr} {s : State} {e : CmdError} (h : operandVerdict i s = some e) :
    e.code ∈ possibleCodes i := by
  cases i with
  | config len order =>
    obtain ⟨-, he⟩ := Option.ite_none_left_eq_some.1 h
    obtain rfl := Option.some.inj he
    simp [possibleCodes, CmdError.code]
  | clear | rdreg | wrreg | refresh => cases h
  | _ =>
    obtain rfl := indexVerdict_eq_some h
    simp [possibleCodes, CmdError.code]

/-- In the `CFG_STATE` a command requires it answers one of the codes of its row. -/
theorem AnswerCase.code_mem {i : Instr} {s : State} {r : Response} (h : AnswerCase i s r) (hc : s.cfg = requiredCfg i) :
    r.code ∈ possibleCodes i := by
  cases h with
  | refused hv _ => exact code_mem_of_operandVerdict ((if_pos hc).symm.trans hv)
  | completes _ _ => exact ok_mem_possibleCodes i
  | cutShort _ hf =>
    have hpos := Nat.zero_lt_of_lt hf.1
    exact (hardwareFault_mem_possibleCodes_iff i).2 ((eventsOf_length_pos_iff i _).1 hpos)

/-- In the other it answers IllegalState (R204). -/
theorem AnswerCase.code_of_wrongCfg {i : Instr} {s : State} {r : Response} (h : AnswerCase i s r)
    (hc : s.cfg ≠ requiredCfg i) : r.code = .illegalState := by
  have hwrong := checkVerdict_of_wrongCfg hc
  cases h with
  | refused hv _ =>
    obtain rfl := Option.some.inj (hwrong.symm.trans hv)
    rfl
  | completes hv _ => cases hwrong.symm.trans hv
  | cutShort hv _ => cases hwrong.symm.trans hv

/-! ### Each code of a row occurs -/

/-- The command with its index, or its length, at `k`, and CONFIG's order at NormalLSBFirst. -/
def atIndex (k : Int) : Instr → Instr
  | .config _ _ => .config k 0
  | .clear => .clear
  | .rdreg => .rdreg
  | .rdbyte _ => .rdbyte k
  | .rdbit _ => .rdbit k
  | .wrreg v => .wrreg v
  | .refresh => .refresh
  | .wrbyte y _ => .wrbyte y k
  | .wrbit st _ => .wrbit st k
  | .pget _ => .pget k
  | .pset _ st => .pset k st
  | .ptgl _ => .ptgl k
  | .pon _ => .pon k
  | .poff _ => .poff k

theorem atIndex_same (k : Int) (i : Instr) :
    (atIndex k i).mnemonic = i.mnemonic ∧ requiredCfg (atIndex k i) = requiredCfg i ∧
    isRead (atIndex k i) = isRead i := by
  cases i <;> exact ⟨rfl, rfl, rfl⟩

/-- The reference parameters and a chain of two parts, in the `CFG_STATE` that `i` requires, whose next event, where line
faults are on, is answered `fail`. -/
def accepting (i : Instr) (faults : Bool) : State :=
  { State.resetOf { Config.reference with lineFaults := faults } with
    cfg := requiredCfg i
    chainLen := 2
    answers := [.fail] }

/-- Index 1 is a byte and a bit of the chain, and length 1 one that CONFIG accepts. -/
theorem checkVerdict_accepting (i : Instr) (faults : Bool) :
    checkVerdict (atIndex 1 i) (accepting i faults) = none := by
  cases i <;> rfl

/-- A code of a row that is neither OK nor HardwareFault is the one a negative index or length is refused with. -/
theorem possibleCodes_cases {i : Instr} {c : RespCode} (h : c ∈ possibleCodes i) :
    c = .ok ∨ c = .hardwareFault ∨
      ∃ e : CmdError, e.code = c ∧ ∀ s, operandVerdict (atIndex (-1) i) s = some e := by
  cases i with
  | config len order =>
    rcases List.mem_cons.1 h with hc | h
    · exact .inl hc
    · exact .inr ((List.mem_pair.1 h).symm.imp_right fun hc => ⟨.configurationError, hc.symm, fun _ => rfl⟩)
  | rdreg => exact .inl (List.mem_singleton.1 h)
  | clear | wrreg | refresh => exact (List.mem_pair.1 h).imp_right .inl
  | rdbyte | rdbit | pget =>
    exact (List.mem_pair.1 h).imp_right fun hc => .inr ⟨.indexError, hc.symm, fun _ => rfl⟩
  | _ =>
    rcases List.mem_cons.1 h with hc | h
    · exact .inl hc
    · exact .inr ((List.mem_pair.1 h).symm.imp_right fun hc => ⟨.indexError, hc.symm, fun _ => rfl⟩)

/-- Each code of a command's row is the answer of that command, for some operands in some state. -/
theorem possibleCodes_occur {i : Instr} {c : RespCode} (h : c ∈ possibleCodes i) :
    ∃ (i' : Instr) (s t : State) (d : Nat),
      i'.mnemonic = i.mnemonic ∧ s.cfg = requiredCfg i' ∧ exec i' s = .next t ∧ Responded s t c d := by
  obtain ⟨hmn, hcfg, hread⟩ := atIndex_same 1 i
  rcases possibleCodes_cases h with rfl | rfl | ⟨e, rfl, he⟩
  · obtain ⟨t, d, hx, hr⟩ := exec_answers_ok (checkVerdict_accepting i false) (allOk_of_noFaults rfl)
    exact ⟨_, _, t, d, hmn, hcfg.symm, hx, hr⟩
  · have hpos := (eventsOf_length_pos_iff (atIndex 1 i) (beforeEvents (atIndex 1 i) (accepting i true))).2
      (hread.trans ((hardwareFault_mem_possibleCodes_iff i).1 h))
    obtain ⟨t, hx, hr⟩ := exec_answers_hardwareFault (checkVerdict_accepting i true) hpos rfl
    exact ⟨_, _, t, 0, hmn, hcfg.symm, hx, hr⟩
  · obtain ⟨hmn', hcfg', -⟩ := atIndex_same (-1) i
    have hc : (accepting i true).cfg = requiredCfg (atIndex (-1) i) := hcfg'.symm
    exact ⟨_, _, _, 0, hmn', hc, exec_of_refused ((if_pos hc).trans (he _)), rfl⟩

/-- Settles O29: `AnswerCase` gives the two directions of IllegalState and the row, and each code has its witness. -/
theorem codesOfEachCommand : Obligations.CodesOfEachCommand := by
  refine ⟨fun i s t r hx hr => ?_, fun i c hc => possibleCodes_occur hc, fun p r => ⟨?_, Nat.mod_eq_of_lt⟩⟩
  · have h := answerCase_of_exec hx hr
    refine ⟨⟨fun hill hc => ?_, h.code_of_wrongCfg⟩, h.code_mem⟩
    exact illegalState_not_mem_possibleCodes i (hill ▸ h.code_mem hc)
  · cases hc : r.code <;> simp [Response.bits, RespCode.number, hc]

/-! ### The step -/

/-- Settles O8: a word that matches no row does not decode (O4), and an idle controller refuses it at either level. -/
theorem stepAnswersIllegalCommand : Obligations.StepAnswersIllegalCommand := by
  intro s b rest hq hh hnone
  obtain ⟨-, hillegal, -⟩ := decodeFollowsOpcodeMap b
  obtain ⟨e, he⟩ := hillegal.2 hnone
  exact (step_of_beat hq hh).trans (takeBeat_of_illegal he _)

/-- Settles O10: `exists_step` goes through what the controller can find. -/
theorem stepNeverStops : Obligations.StepNeverStops :=
  ⟨fun _ => step_of_noMove, exists_step⟩

end Sys2Proof.Machine
end

section
/-! How many line events a command emits, and where it leaves the clocks and the clear line when it responds
(spec/70_reset_and_hazards.md R258, R259). -/

namespace Sys2Proof.Machine

/-! ### The events of a command that completes, and of one refused -/

/-- A command answered `OK` has emitted all its events, and nothing else it does drives a line. -/
theorem emitted_of_ok {i : Instr} {s t : State} {d : Nat} (hx : exec i s = .next t) (hr : Responded s t .ok d) :
    Emitted s t (eventsOf i (beforeEvents i s)) := by
  obtain ⟨v, hb⟩ := beforeEvents_eq i s
  rcases exec_cases i s with ⟨e, -, -, h⟩ | ⟨-, u, rfl, -, h⟩ | ⟨-, u, j, e, rfl, -, -, h⟩ <;>
    obtain rfl := Host.Outcome.next.inj (h.symm.trans hx)
  · exact absurd hr (not_responded_ok_of_raise rfl e d)
  · rw [hb]
    obtain ⟨-, -, -, hev, hl, -, -, -, ha, hf, hs⟩ :=
      afterEvents_same i (applied (eventsOf i (s.setShadow v)) (s.setShadow v))
    simp [Emitted, hev, hl, ha, hf, hs]
  · exact absurd hr (not_responded_ok_of_raise (by simp [hb]) .hardwareFault d)

/-- A command that ends with an error other than HardwareFault has only raised it. -/
theorem raised_of_code {i : Instr} {s t : State} {c : RespCode} {d : Nat} (hx : exec i s = .next t)
    (hr : Responded s t c d) (hok : c ≠ .ok) (hhw : c ≠ .hardwareFault) : ∃ e, t = s.raise e := by
  cases answerCase_of_exec hx hr with
  | @refused e hv _ => exact ⟨e, Host.Outcome.next.inj (hx.symm.trans (exec_of_refused hv))⟩
  | completes _ _ => exact absurd rfl hok
  | cutShort _ _ => exact absurd rfl hhw

/-- The before-events writes leave the chain length, on which alone the number of events depends. -/
theorem eventsOf_beforeEvents_length (i : Instr) (s : State) :
    (eventsOf i (beforeEvents i s)).length = completedEventCount i s := by
  cases i with
  | config | clear | rdreg | rdbyte | rdbit | pget => rfl
  | _ => exact shiftOutEvents_length ..

/-- Settles O49: a completed command has emitted its events, a refused one and an illegal beat only raise an error. -/
theorem eventCounts : Obligations.EventCounts := by
  refine ⟨fun i s t c d hx hr => ⟨?_, fun hok hhw => ?_⟩, fun b e s t hd hx => ?_⟩
  · rintro rfl
    obtain ⟨hevents, -⟩ := emitted_of_ok hx hr
    rw [hevents, List.length_append, eventsOf_beforeEvents_length]
  · obtain ⟨e, rfl⟩ := raised_of_code hx hr hok hhw
    rfl
  · obtain rfl := Host.Outcome.next.inj ((takeBeat_of_illegal hd s).symm.trans hx)
    exact ⟨rfl, rfl⟩

/-! ### The clocks and the clear line at rest -/

theorem quiet_linesAfter_shiftOut (o : BitOrder) {n : Nat} (v : Nat) {ln : Lines} (h : 0 < n ∨ ln.sck = false) :
    Quiet (linesAfter ln (shiftOutEvents o n v)) := by
  obtain ⟨hlck, hclr, -, hsck⟩ := linesAfter_shiftOut o n v ln
  exact ⟨hsck h, hlck, hclr⟩

/-- Events of one command, all answered `ok`, leave quiet lines quiet. -/
theorem quiet_linesAfter_eventsOf {ln : Lines} (h : Quiet ln) (i : Instr) (s : State) :
    Quiet (linesAfter ln (eventsOf i s)) := by
  cases i with
  | config => exact ⟨rfl, rfl, rfl⟩
  | clear => exact ⟨h.1, rfl, rfl⟩
  | rdreg | rdbyte | rdbit | pget => exact h
  | _ => exact quiet_linesAfter_shiftOut _ _ (.inr h.1)

theorem Quiet.get {ln : Lines} (h : Quiet ln) {l : Line} {v : Level} (hl : restLevel l = some v) : ln.get l = v := by
  obtain ⟨hsck, hlck, hclr⟩ := h
  cases l <;> cases hl <;> assumption

/-- A completed write drives each of these lines, and last to its rest level: there is a bit to clock, `N` being at
least 1. -/
theorem quiet_of_write_ok {i : Instr} {s t : State} {d : Nat} (hi : s.Inv) (hw : isWrite i = true)
    (hx : exec i s = .next t) (hr : Responded s t .ok d) : Quiet t.lines := by
  have hcfg : s.cfg = .configured := by
    rcases requiredCfg_cases i with ⟨⟨len, order, rfl⟩, -⟩ | ⟨-, hreq⟩
    · cases hw
    · exact (passed_check (passed_of_ok hx hr)).1.trans hreq
  obtain ⟨hn, -⟩ := ((inv_iff s).1 hi).1.registers hcfg
  obtain ⟨v, hb⟩ := beforeEvents_eq i s
  obtain ⟨-, hlines, -⟩ := emitted_of_ok hx hr
  rw [hlines, eventsOf_write hw, hb]
  exact quiet_linesAfter_shiftOut _ _ (.inl hn)

/-- So does a completed CONFIG, whatever the lines were (40_construction_and_clear.md R121). -/
theorem quiet_of_config_ok {len : Int} {order : BitVec 2} {s t : State} {d : Nat}
    (hx : exec (.config len order) s = .next t) (hr : Responded s t .ok d) : Quiet t.lines := by
  obtain ⟨-, hlines, -⟩ := emitted_of_ok hx hr
  rw [hlines]
  exact ⟨rfl, rfl, rfl⟩

/-- Pulses that close, begun with every specified line at rest or about to be taken there, leave every specified line at
rest. -/
theorem State.Rests.applied_events {es : List LineEvent} {s : State} (h : s.Rests es[0]?) (hp : PulsesClose es) :
    (applied es s).Rests none := by
  induction es generalizing s with
  | nil => exact h
  | cons e es ih => exact ih (h.eventOk hp rfl) hp.2

theorem State.Rests.get {s : State} (h : s.Rests none) {l : Line} {v : Level} (hl : restLevel l = some v)
    (hs : s.specified.get l = true) : s.lines.get l = v :=
  (h l v hl hs).resolve_right (by simp)

/-- A completed command leaves the specified lines at rest: CONFIG drives them all, any other closes its pulses. -/
theorem rests_of_ok {i : Instr} {s t : State} {d : Nat} (hq : s.seq = .idle) (hk : s.ClocksInv)
    (hx : exec i s = .next t) (hr : Responded s t .ok d) : t.Rests none := by
  rcases requiredCfg_cases i with ⟨⟨len, order, rfl⟩, -⟩ | ⟨-, hreq⟩
  · exact fun l v hl _ => .inl ((quiet_of_config_ok hx hr).get hl)
  · have hrest := (clocksInv_of_idle hq).1 hk ((passed_check (passed_of_ok hx hr)).1.trans hreq)
    have happlied := (hrest.mono _).applied_events (pulsesClose_eventsOf i (beforeEvents i s))
    obtain ⟨-, hlines, hspec, -⟩ := emitted_of_ok hx hr
    simpa [State.Rests, hlines, hspec] using happlied

/-- Settles O50: CONFIG and the writes drive the clocks and the clear line to rest, and every command closes the pulses it
begins. -/
theorem pulsesEndBeforeResponse : Obligations.PulsesEndBeforeResponse := by
  refine ⟨fun i s t d hi hx hr => ⟨?_, fun hquiet => ?_, fun hq hk l v => (rests_of_ok hq hk hx hr).get⟩,
    fun s hc hq hk => ?_⟩
  · rintro (hw | ⟨len, order, rfl⟩)
    · exact quiet_of_write_ok hi hw hx hr
    · exact quiet_of_config_ok hx hr
  · obtain ⟨-, hlines, -⟩ := emitted_of_ok hx hr
    rw [hlines]
    exact quiet_linesAfter_eventsOf hquiet i _
  · have hrest := (clocksInv_of_idle hq).1 hk hc
    exact ⟨hrest.get (l := .sck) rfl, hrest.get (l := .lck) rfl⟩

end Sys2Proof.Machine
end
